-- ==== Sys2Proof/Word.lean ====
section
/-! DEFINITION. The number types of the dato/synacor CORE: words, register values, bytes and register numbers
(00_scope.md R5, R7). -/

namespace Sys2Proof

/-- `Word16`, 0 to 65535: the unit of memory, of the stack and of an instruction (00_scope.md R7, R9). -/
abbrev Word := BitVec 16

/-- `Val15`, 0 to 32767: what a register holds and what operand resolution answers (00_scope.md R7, 10_state.md R10). -/
abbrev Val := BitVec 15

/-- `Byte`, 0 to 255: what the two channels carry (00_scope.md R7). -/
abbrev Byte := BitVec 8

/-- `RegIdx`, 0 to 7 (00_scope.md R7). -/
abbrev RegIdx := Fin 8

end Sys2Proof
end

