-- ==== Sys2Proof/Machine/Flags.lean ====
section
/-! DEFINITION. The machine has no flags (10_state.md R17). What stands in their place: the 0 or 1 that a comparison
writes to a register, and the test a conditional jump makes. -/

namespace Sys2Proof.Machine

/-- 1 if the values are equal, else 0 (42_compare.md R100). -/
def eqResult (vb vc : Val) : Nat := if vb.toNat = vc.toNat then 1 else 0

/-- 1 if the first value is greater, unsigned, else 0 (42_compare.md R101). -/
def gtResult (vb vc : Val) : Nat := if vc.toNat < vb.toNat then 1 else 0

/-- Any value but 0 counts as true (43_jumps.md R106, R107). -/
def condition (v : Val) : Bool := v.toNat != 0

end Sys2Proof.Machine
end

