-- ==== Sys2Proof/Config.lean ====
section
/-! DEFINITION. The fixed constants of the machine (00_scope.md R5) and the parameters of a run (00_scope.md R6).
The spec leaves no value open (93_implementation_defined.md), so there is no free value here. -/

namespace Sys2Proof.Config

/-- `MOD`, the value modulus (00_scope.md R5). -/
abbrev modulus : Nat := 32768

/-- `NREG`, the number of general registers (00_scope.md R5). -/
abbrev registerCount : Nat := 8

/-- The largest `MEM_SIZE` and the longest image (00_scope.md R6, 70_reset_and_hazards.md R181). -/
abbrev maxMemSize : Nat := 32768

/-- The largest known opcode (00_scope.md R5, 30_encoding.md R52). -/
abbrev lastOpcode : Nat := 21

/-- The longest instruction, in words (30_encoding.md R50). -/
abbrev longestInstr : Nat := 4

/-- The parameters of a run (00_scope.md R6), chosen by the platform before the first step and fixed from then on
(log 2, log 3). -/
structure Params where
  /-- `MEM_SIZE`, the number of memory words. -/
  memSize : Nat
  /-- `STACK_DEPTH`, the most words the stack can hold; `none` is `unbounded`. -/
  stackDepth : Option Nat
deriving DecidableEq, Repr

end Sys2Proof.Config
end

