-- ==== Sys2Proof/Syntax.lean ====
section
/-! DEFINITION. The 22 instructions (30_encoding.md R53). An operand is the raw word as the decoder latched it: the
decoder does not resolve or validate it (30_encoding.md R57, 40_step_and_operands.md R70), and a fault record names it
as it stood in memory (60_exceptions.md R151). -/

namespace Sys2Proof

/-- One constructor per row of the opcode map (30_encoding.md R53). `inp` is the row `In`. -/
inductive Instr where
  | hlt
  | set (a b : Word)
  | push (a : Word)
  | pop (a : Word)
  | eq (a b c : Word)
  | gt (a b c : Word)
  | jmp (a : Word)
  | jt (a b : Word)
  | jf (a b : Word)
  | add (a b c : Word)
  | mul (a b c : Word)
  | mod (a b c : Word)
  | and (a b c : Word)
  | or (a b c : Word)
  | not (a b : Word)
  | rmem (a b : Word)
  | wmem (a b : Word)
  | call (a : Word)
  | ret
  | out (a : Word)
  | inp (a : Word)
  | noop
deriving DecidableEq, Repr

/-- An operand's position in its instruction, as a fault record names it (60_exceptions.md R151). -/
inductive OperandPos where
  | a | b | c
deriving DecidableEq, Repr

end Sys2Proof
end

