-- ==== Sys2Proof/Machine/State.lean ====
section
/-! DEFINITION. The whole state of the core (10_state.md), as plain data, and the state after reset (10_state.md R25). -/

namespace Sys2Proof.Machine

open Sys2Proof.Config (Params)

/-- The eight general registers (10_state.md R10), each a 15-bit value (log 9). -/
structure Regs where
  x0 : Val
  x1 : Val
  x2 : Val
  x3 : Val
  x4 : Val
  x5 : Val
  x6 : Val
  x7 : Val
deriving DecidableEq, Repr

/-- Memory as a list of (word address, word): addresses strictly rising, no listed word 0, an unlisted address reads 0
(20_memory.md R30, R40; log 1). -/
abbrev Memory := List (Nat × Word)

/-- What a memory access was for, as the record of `OutOfBounds` says (60_exceptions.md R151). -/
inductive AccessKind where
  | fetch | dataRead | dataWrite
deriving DecidableEq, Repr

/-- The fault kinds (60_exceptions.md R151). -/
inductive FaultKind where
  | invalidOpcode | invalidOperand | outOfBounds | divisionByZero | stackUnderflow | invalidRegister | stackOverflow
deriving DecidableEq, Repr

/-- `kind` and `info` of a fault record as one value: each kind with the info the spec gives it
(10_state.md R21, 60_exceptions.md R151; log 12). -/
inductive FaultCause where
  /-- The opcode word (60_exceptions.md R152). -/
  | invalidOpcode (word : Word)
  /-- The operand word and its position (60_exceptions.md R153). -/
  | invalidOperand (word : Word) (pos : OperandPos)
  /-- The address and the access (60_exceptions.md R154). -/
  | outOfBounds (addr : Nat) (access : AccessKind)
  /-- 60_exceptions.md R155. -/
  | divisionByZero
  /-- 60_exceptions.md R156. -/
  | stackUnderflow
  /-- The destination word (60_exceptions.md R158). -/
  | invalidRegister (word : Word)
  /-- 60_exceptions.md R157. -/
  | stackOverflow
deriving DecidableEq, Repr

/-- The fault record (10_state.md R21). -/
structure FaultRecord where
  /-- `kind` and `info`. -/
  cause : FaultCause
  /-- The address of the faulting instruction's opcode word. -/
  faultPc : Word
  /-- The opcode word, when its fetch succeeded. -/
  opcode : Option Word
deriving DecidableEq, Repr

/-- Why a run ended gracefully (10_state.md R20, 60_exceptions.md R160). -/
inductive HaltReason where
  | hltInstruction | retEmptyStack | inputExhausted
deriving DecidableEq, Repr

/-- The run status (10_state.md R20). -/
inductive Status where
  | running
  | halted (reason : HaltReason)
  | faulted (record : FaultRecord)
deriving DecidableEq, Repr

/-- The state of the core (10_state.md), with the parameters of the run (00_scope.md R6), the trace of emitted bytes
(10_state.md R24) and the host's answers to come (47_io.md R133). -/
structure State where
  /-- `x[0]` to `x[7]` (10_state.md R10). -/
  regs : Regs
  /-- The program counter, a word address (10_state.md R13). -/
  pc : Word
  /-- The stack, its top at the head of the list (10_state.md R15; log 8). -/
  stack : List Word
  /-- The memory (10_state.md R22). -/
  mem : Memory
  /-- The input buffer, the next byte at the head (10_state.md R23). -/
  inbuf : List Byte
  /-- The run status with the halt reason or fault record (10_state.md R20, R21). -/
  status : Status
  /-- The emitted bytes in emission order (10_state.md R24; log 11). -/
  out : List Byte
  /-- The parameters of the run (00_scope.md R6; log 2, log 3). -/
  params : Params
  /-- The model's own field: the host's answers to the coming line requests, in order, an empty one being end of
  stream; no element while the host has not answered (47_io.md R133, R136; log 4). -/
  answers : List (List Byte)
deriving DecidableEq, Repr

/-- Why `step` has no next state. The core's own fatal faults are NOT here: each is a next state whose `status` is
`faulted` (60_exceptions.md R150; log 6). -/
inductive Fault where
  /-- Raised by `step` alone, when `status` is not `running`: "no step is taken" (40_step_and_operands.md R70). Safe:
  the hardware takes no step there either (log 7). -/
  | runEnded
deriving DecidableEq, Repr

/-- No meaning for the instruction. -/
inductive Refusal where
  /-- Raised by an arm of `exec` whose instruction is not modelled yet; no arm is left that raises it. Safe. -/
  | notModelled (mnemonic : String)
deriving DecidableEq, Repr

/-- All eight registers 0 (10_state.md R25). -/
def Regs.zero : Regs := ⟨0, 0, 0, 0, 0, 0, 0, 0⟩

/-- The state after reset, before an image is loaded (10_state.md R25, 70_reset_and_hazards.md R180). The memory size
is the largest the spec allows (log 2, DESIGN CHOICE), the stack unbounded (log 3), and the host has not answered
anything (log 4, DESIGN CHOICE). -/
def State.reset : State where
  regs := Regs.zero
  pc := 0
  stack := []
  mem := []
  inbuf := []
  status := .running
  out := []
  params := ⟨Config.maxMemSize, none⟩
  answers := []

end Sys2Proof.Machine
end

