-- ==== Sys2Proof/Machine/Ops.lean ====
section
/-! DEFINITION. The named operations over registers, pc, stack, memory, channels and status that every instruction is
written with (00_scope.md R8), taking a fault (60_exceptions.md R150), halting (R160), and what reset does to the core
(70_reset_and_hazards.md R180). -/

namespace Sys2Proof.Machine

/-- What a check answers: a value, or the fault it raises (40_step_and_operands.md R77). -/
abbrev Check (α : Type) := Except FaultCause α

/-! ### Registers -/

/-- The contents of register `i` (00_scope.md R8). -/
def Regs.get (r : Regs) (i : RegIdx) : Val :=
  match i with
  | 0 => r.x0
  | 1 => r.x1
  | 2 => r.x2
  | 3 => r.x3
  | 4 => r.x4
  | 5 => r.x5
  | 6 => r.x6
  | 7 => r.x7

/-- The register file with register `i` replaced. -/
def Regs.set (r : Regs) (i : RegIdx) (v : Val) : Regs :=
  match i with
  | 0 => { r with x0 := v }
  | 1 => { r with x1 := v }
  | 2 => { r with x2 := v }
  | 3 => { r with x3 := v }
  | 4 => { r with x4 := v }
  | 5 => { r with x5 := v }
  | 6 => { r with x6 := v }
  | 7 => { r with x7 := v }

/-- `x[i] <- n`: register `i` becomes `n mod 32768`, nothing else changes (40_step_and_operands.md R76). -/
def State.writeReg (s : State) (i : RegIdx) (n : Nat) : State :=
  { s with regs := s.regs.set i (BitVec.ofNat 15 n) }

/-! ### Program counter -/

/-- `pc <- pc0 + n`, past an instruction of `n` words (10_state.md R14, 40_step_and_operands.md R71; log 10). -/
def State.advance (s : State) (n : Nat) : State := { s with pc := s.pc + BitVec.ofNat 16 n }

/-- `pc <- t`. The target is not checked (43_jumps.md R108 (b)). -/
def State.jump (s : State) (t : Word) : State := { s with pc := t }

/-! ### Stack -/

/-- The stack holds `STACK_DEPTH` words, which is finite (10_state.md R15, 60_exceptions.md R157; log 10). -/
def State.stackFull (s : State) : Bool :=
  match s.params.stackDepth with
  | none => false
  | some d => s.stack.length == d

/-- `push(w)`, or `StackOverflow` on a full stack (10_state.md R15). -/
def State.push (s : State) (w : Word) : Check State :=
  if s.stackFull then .error .stackOverflow else .ok { s with stack := w :: s.stack }

/-- `pop()`: the top word and the state without it; `none` on an empty stack (10_state.md R15). -/
def State.pop (s : State) : Option (Word × State) :=
  match s.stack with
  | [] => none
  | w :: rest => some (w, { s with stack := rest })

/-! ### Memory -/

/-- What an unlisted address reads as: memory beyond the image is zero (20_memory.md R40, 10_state.md R25). -/
@[simp, reducible] def Memory.unlisted : Word := 0#16

/-- The word at an address; an unlisted address reads 0 (20_memory.md R40). -/
def Memory.read : Memory → Nat → Word
  | [], _ => Memory.unlisted
  | (k, w) :: m, a => if a = k then w else Memory.read m a

/-- The memory with the word at one address replaced, in the canonical form: addresses rising, no word equal to an unlisted one listed. -/
def Memory.write : Memory → Nat → Word → Memory
  | [], a, v => if v = Memory.unlisted then [] else [(a, v)]
  | (k, w) :: m, a, v =>
    if a < k then (if v = Memory.unlisted then (k, w) :: m else (a, v) :: (k, w) :: m)
    else if a = k then (if v = Memory.unlisted then m else (k, v) :: m)
    else (k, w) :: Memory.write m a v

/-- Words written at consecutive ascending addresses from `a`. -/
def Memory.writeAll : Memory → Nat → List Word → Memory
  | m, _, [] => m
  | m, a, w :: ws => Memory.writeAll (Memory.write m a w) (a + 1) ws

/-- The canonical form: addresses strictly rising, no listed word equal to
an unlisted one (log 1). -/
abbrev Memory.wf (m : Memory) : Prop := m.Pairwise (fun p q => p.1 < q.1) ∧ ∀ c ∈ m, c.2 ≠ Memory.unlisted

/-- `MemRead(addr, 1)` (20_memory.md R32, R36). -/
def State.memRead (s : State) (addr : Nat) (access : AccessKind) : Check Word :=
  if s.params.memSize ≤ addr then .error (.outOfBounds addr access) else .ok (Memory.read s.mem addr)

/-- `MemWrite(addr, 1, v)` (20_memory.md R33, R36). -/
def State.memWrite (s : State) (addr : Nat) (v : Word) : Check State :=
  if s.params.memSize ≤ addr then .error (.outOfBounds addr .dataWrite)
  else .ok { s with mem := Memory.write s.mem addr v }

/-! ### Channels -/

/-- `emit(b)`: always succeeds; the trace keeps emission order (47_io.md R130). -/
def State.emit (s : State) (b : Byte) : State := { s with out := s.out ++ [b] }

/-- What asking for the next input byte comes to (47_io.md R133, R134, R136). -/
inductive InputResult where
  /-- A byte, and the state after taking it. -/
  | byte (b : Byte) (s : State)
  /-- The host answered end of stream. -/
  | endOfStream (s : State)
  /-- The buffer is empty and the host has not answered. -/
  | waiting
deriving DecidableEq, Repr

/-- The next input byte: from the buffer, or, when it is empty, from the host's answer to a line request, which is
queued whole and unchanged (47_io.md R133, R134). -/
def State.nextInput (s : State) : InputResult :=
  match s.inbuf with
  | b :: rest => .byte b { s with inbuf := rest }
  | [] =>
    match s.answers with
    | [] => .waiting
    | [] :: more => .endOfStream { s with answers := more }
    | (b :: rest) :: more => .byte b { s with inbuf := rest, answers := more }

/-! ### The ends of a step -/

/-- `halt(reason)`: pc keeps its advanced value (60_exceptions.md R160). -/
def State.halt (s : State) (reason : HaltReason) : State := { s with status := .halted reason }

/-- `raise K(info)` in a step that began in `s`, so with `pc = pc0`: only `status` changes, and the record says the
kind with its info, `pc0`, and the opcode word if it was fetched (60_exceptions.md R150, 40_step_and_operands.md R79). -/
def State.takeFault (s : State) (op : Option Word) (cause : FaultCause) : State :=
  { s with status := .faulted ⟨cause, s.pc, op⟩ }

/-- The end of the execute phase of a step that began in `s`: the effects, or the fault alone
(40_step_and_operands.md R70, R79; log 6). -/
def State.finish (s : State) (op : Word) (r : Check State) : Host.Outcome State Fault Refusal :=
  match r with
  | .ok t => .next t
  | .error cause => .next (s.takeFault (some op) cause)

/-- `status = Running`: only then is a step taken (40_step_and_operands.md R70). -/
def State.isRunning (s : State) : Bool :=
  match s.status with
  | .running => true
  | .halted _ => false
  | .faulted _ => false

/-! ### Reset -/

/-- What reset does to the core: everything but the memory, the parameters and what the host will answer
(70_reset_and_hazards.md R180, 92_eei_decisions.md D19). It starts no run by itself: the host reaches it through
`State.restart`, together with the load of memory. -/
def State.resetCore (s : State) : State :=
  { s with regs := Regs.zero, pc := 0, stack := [], inbuf := [], status := .running, out := [] }

/-! ### Numeric codes the host sees -/

/-- The kind of a fault (60_exceptions.md R151). -/
def FaultCause.kind : FaultCause → FaultKind
  | .invalidOpcode _ => .invalidOpcode
  | .invalidOperand _ _ => .invalidOperand
  | .outOfBounds _ _ => .outOfBounds
  | .divisionByZero => .divisionByZero
  | .stackUnderflow => .stackUnderflow
  | .invalidRegister _ => .invalidRegister
  | .stackOverflow => .stackOverflow

/-- The code of a fault kind (60_exceptions.md R151). -/
def FaultKind.code : FaultKind → Nat
  | .invalidOpcode => 1
  | .invalidOperand => 2
  | .outOfBounds => 3
  | .divisionByZero => 4
  | .stackUnderflow => 5
  | .invalidRegister => 6
  | .stackOverflow => 7

/-- The code of a halt reason (60_exceptions.md R160). -/
def HaltReason.code : HaltReason → Nat
  | .hltInstruction => 0
  | .retEmptyStack => 1
  | .inputExhausted => 2

end Sys2Proof.Machine
end

