-- ==== Sys2Proof/Machine/Operands.lean ====
section
/-! DEFINITION. The one source rule `v` and the one destination rule `dst` of the machine (40_step_and_operands.md
R74, R75; 30_encoding.md R55, R56). -/

namespace Sys2Proof.Machine

/-- The forms of an operand word, told apart by its value alone (30_encoding.md R55). -/
inductive OperandForm where
  | literal (v : Val)
  | register (i : RegIdx)
  | invalid
deriving DecidableEq, Repr

/-- A literal has bit 15 clear, a register reference has bit 15 set and bits 14 to 3 clear (00_scope.md R7,
30_encoding.md R55). -/
def operandForm (w : Word) : OperandForm :=
  if w.toNat < 32768 then .literal (BitVec.ofNat 15 w.toNat)
  else if h : w.toNat - 32768 < 8 then .register ⟨w.toNat - 32768, h⟩
  else .invalid

/-- `v(w)`, resolved once and changing nothing (40_step_and_operands.md R74). -/
def source (s : State) (pos : OperandPos) (w : Word) : Check Val :=
  match operandForm w with
  | .literal v => .ok v
  | .register i => .ok (s.regs.get i)
  | .invalid => .error (.invalidOperand w pos)

/-- `dst(w)`: the register number `w mod 32768`, which must be below 8 (40_step_and_operands.md R75). -/
def dst (w : Word) : Check RegIdx :=
  if h : w.toNat % 32768 < 8 then .ok ⟨w.toNat % 32768, h⟩ else .error (.invalidRegister w)

/-- A resolved value as a 16-bit word, its value unchanged: what is pushed, stored or jumped to (20_memory.md R35,
41_set_stack.md R91, 43_jumps.md R105). -/
def Val.word (v : Val) : Word := BitVec.ofNat 16 v.toNat

end Sys2Proof.Machine
end

