-- ==== Sys2Proof/Machine/Compare.lean ====
section
/-! DEFINITION. Eq, Gt (42_compare.md), and the shape they share with the three-operand instructions of 44_alu.md. -/

namespace Sys2Proof.Machine

/-- `x[a] <- f(v(b), v(c))` of opcode `op`, four words long, operands checked in the order a, b, c
(40_step_and_operands.md R77, R78). -/
def binary (op : Word) (f : Val → Val → Nat) (a b c : Word) (s : State) : Host.Outcome State Fault Refusal :=
  s.finish op do
    let i ← dst a
    let vb ← source s .b b
    let vc ← source s .c c
    return (s.advance 4).writeReg i (f vb vc)

/-- `Eq a, b, c` (42_compare.md R100). -/
def execEq (a b c : Word) (s : State) : Host.Outcome State Fault Refusal := binary 4 eqResult a b c s

/-- `Gt a, b, c` (42_compare.md R101). -/
def execGt (a b c : Word) (s : State) : Host.Outcome State Fault Refusal := binary 5 gtResult a b c s

end Sys2Proof.Machine
end

