-- ==== Sys2Proof/Machine/Alu.lean ====
section
/-! DEFINITION. Add, Mul, Mod, And, Or, Not (44_alu.md). Each result is the exact natural number; the register write
reduces it modulo 32768 (40_step_and_operands.md R76). -/

namespace Sys2Proof.Machine

/-- The exact sum (44_alu.md R110). -/
def addResult (vb vc : Val) : Nat := vb.toNat + vc.toNat

/-- The exact product (44_alu.md R111). -/
def mulResult (vb vc : Val) : Nat := vb.toNat * vc.toNat

/-- The bitwise and (44_alu.md R113). -/
def andResult (vb vc : Val) : Nat := vb.toNat &&& vc.toNat

/-- The bitwise or (44_alu.md R114). -/
def orResult (vb vc : Val) : Nat := vb.toNat ||| vc.toNat

/-- The complement within 15 bits (44_alu.md R115). -/
def notResult (vb : Val) : Nat := 32767 - vb.toNat

/-- The unsigned remainder, or `DivisionByZero` (44_alu.md R112). -/
def modResult (vb vc : Val) : Check Nat :=
  if vc.toNat = 0 then .error .divisionByZero else .ok (vb.toNat % vc.toNat)

/-- `Add a, b, c` (44_alu.md R110). -/
def execAdd (a b c : Word) (s : State) : Host.Outcome State Fault Refusal := binary 9 addResult a b c s

/-- `Mul a, b, c` (44_alu.md R111). -/
def execMul (a b c : Word) (s : State) : Host.Outcome State Fault Refusal := binary 10 mulResult a b c s

/-- `Mod a, b, c` (44_alu.md R112). -/
def execMod (a b c : Word) (s : State) : Host.Outcome State Fault Refusal :=
  s.finish 11 do
    let i ← dst a
    let vb ← source s .b b
    let vc ← source s .c c
    let r ← modResult vb vc
    return (s.advance 4).writeReg i r

/-- `And a, b, c` (44_alu.md R113). -/
def execAnd (a b c : Word) (s : State) : Host.Outcome State Fault Refusal := binary 12 andResult a b c s

/-- `Or a, b, c` (44_alu.md R114). -/
def execOr (a b c : Word) (s : State) : Host.Outcome State Fault Refusal := binary 13 orResult a b c s

/-- `Not a, b` (44_alu.md R115). -/
def execNot (a b : Word) (s : State) : Host.Outcome State Fault Refusal :=
  s.finish 14 do
    let i ← dst a
    let vb ← source s .b b
    return (s.advance 3).writeReg i (notResult vb)

end Sys2Proof.Machine
end

