-- ==== Sys2Proof/Machine/CallRet.lean ====
section
/-! DEFINITION. Call, Ret (46_call_ret.md). -/

namespace Sys2Proof.Machine

/-- `Call a` (46_call_ret.md R125): the advanced pc is pushed, unreduced. -/
def execCall (a : Word) (s : State) : Host.Outcome State Fault Refusal :=
  s.finish 17 do
    let t ← source s .a a
    let u ← (s.advance 2).push (s.advance 2).pc
    return u.jump (Val.word t)

/-- `Ret` (46_call_ret.md R126): the top word unreduced, or a graceful halt on an empty stack. -/
def execRet (s : State) : Host.Outcome State Fault Refusal :=
  s.finish 18 <|
    match (s.advance 1).pop with
    | none => .ok ((s.advance 1).halt .retEmptyStack)
    | some (w, t) => .ok (t.jump w)

end Sys2Proof.Machine
end

