-- ==== Sys2Proof/Machine/HaltNoop.lean ====
section
/-! DEFINITION. Hlt, Noop (48_halt_noop.md). -/

namespace Sys2Proof.Machine

/-- `Hlt` (48_halt_noop.md R140). -/
def execHlt (s : State) : Host.Outcome State Fault Refusal :=
  s.finish 0 (.ok ((s.advance 1).halt .hltInstruction))

/-- `Noop` (48_halt_noop.md R141). -/
def execNoop (s : State) : Host.Outcome State Fault Refusal :=
  s.finish 21 (.ok (s.advance 1))

end Sys2Proof.Machine
end

