-- ==== Sys2Proof/Machine/Io.lean ====
section
/-! DEFINITION. Out, In (47_io.md). -/

namespace Sys2Proof.Machine

/-- `Out a` (47_io.md R131): the low 8 bits of the resolved value. -/
def execOut (a : Word) (s : State) : Host.Outcome State Fault Refusal :=
  s.finish 19 do
    let va ← source s .a a
    return (s.advance 2).emit (BitVec.ofNat 8 va.toNat)

/-- `In a` (47_io.md R134). While the host has not answered, the whole core waits and no state changes, so pc still
names this instruction (47_io.md R136; log 5). -/
def execIn (a : Word) (s : State) : Host.Outcome State Fault Refusal :=
  s.finish 20 do
    let i ← dst a
    match (s.advance 2).nextInput with
    | .byte b t => return t.writeReg i b.toNat
    | .endOfStream t => return t.halt .inputExhausted
    | .waiting => return s

end Sys2Proof.Machine
end

