-- ==== Sys2Proof/Machine/Jumps.lean ====
section
/-! DEFINITION. Jmp, Jt, Jf (43_jumps.md). The advance is done first, the transfer second (R108 (a)). -/

namespace Sys2Proof.Machine

/-- `Jmp a` (43_jumps.md R105). -/
def execJmp (a : Word) (s : State) : Host.Outcome State Fault Refusal :=
  s.finish 6 do
    let t ← source s .a a
    return (s.advance 2).jump (Val.word t)

/-- A conditional jump of opcode `op`, taken when the condition is `taken`; the target is resolved only then
(43_jumps.md R106, R107; 90_conflicts.md C3). -/
def jumpIf (op : Word) (taken : Bool) (a b : Word) (s : State) : Host.Outcome State Fault Refusal :=
  s.finish op do
    let cond ← source s .a a
    if condition cond = taken then
      let t ← source s .b b
      return (s.advance 3).jump (Val.word t)
    else
      return s.advance 3

/-- `Jt a, b` (43_jumps.md R106). -/
def execJt (a b : Word) (s : State) : Host.Outcome State Fault Refusal := jumpIf 7 true a b s

/-- `Jf a, b` (43_jumps.md R107). -/
def execJf (a b : Word) (s : State) : Host.Outcome State Fault Refusal := jumpIf 8 false a b s

end Sys2Proof.Machine
end

