-- ==== Sys2Proof/Machine/MemoryOps.lean ====
section
/-! DEFINITION. Rmem, Wmem (45_memory_ops.md): the only instructions that access memory as data. -/

namespace Sys2Proof.Machine

/-- `Rmem a, b` (45_memory_ops.md R120). The word read is not resolved. -/
def execRmem (a b : Word) (s : State) : Host.Outcome State Fault Refusal :=
  s.finish 15 do
    let i ← dst a
    let addr ← source s .b b
    let w ← s.memRead addr.toNat .dataRead
    return (s.advance 3).writeReg i w.toNat

/-- `Wmem a, b` (45_memory_ops.md R121). Both operands are sources. -/
def execWmem (a b : Word) (s : State) : Host.Outcome State Fault Refusal :=
  s.finish 16 do
    let addr ← source s .a a
    let v ← source s .b b
    (s.advance 3).memWrite addr.toNat (Val.word v)

end Sys2Proof.Machine
end

