-- ==== Sys2Proof/Machine/SetStack.lean ====
section
/-! DEFINITION. Set, Push, Pop (41_set_stack.md). -/

namespace Sys2Proof.Machine

/-- `Set a, b` (41_set_stack.md R90). -/
def execSet (a b : Word) (s : State) : Host.Outcome State Fault Refusal :=
  s.finish 1 do
    let i ← dst a
    let vb ← source s .b b
    return (s.advance 3).writeReg i vb.toNat

/-- `Push a` (41_set_stack.md R91). -/
def execPush (a : Word) (s : State) : Host.Outcome State Fault Refusal :=
  s.finish 2 do
    let va ← source s .a a
    (s.advance 2).push (Val.word va)

/-- `Pop a` (41_set_stack.md R92). -/
def execPop (a : Word) (s : State) : Host.Outcome State Fault Refusal :=
  s.finish 3 do
    let i ← dst a
    match (s.advance 2).pop with
    | none => .error .stackUnderflow
    | some (w, t) => return t.writeReg i w.toNat

end Sys2Proof.Machine
end

