-- ==== Sys2Proof/Decode.lean ====
section
/-! DEFINITION. The decoder (40_step_and_operands.md R71, 30_encoding.md R50 to R58), written once over whatever
supplies the operand words, and the encoder beside it. -/

namespace Sys2Proof

/-- Why a list of words is no instruction. -/
inductive DecodeError where
  /-- The first word is 22 to 65535 (30_encoding.md R58). -/
  | unknownOpcode (word : Word)
  /-- The list ends before word number `at` of the instruction (word 0 is the opcode). -/
  | missingWord (index : Nat)
deriving DecidableEq, Repr

/-- Format F1: one operand word (30_encoding.md R50). -/
def operands1 {ε : Type} (operand : Nat → Except ε Word) (mk : Word → Instr) : Except ε Instr :=
  (operand 1).map mk

/-- Format F2: two operand words, fetched in ascending order (30_encoding.md R50, 40_step_and_operands.md R71). -/
def operands2 {ε : Type} (operand : Nat → Except ε Word) (mk : Word → Word → Instr) : Except ε Instr :=
  (operand 1).bind fun a => (operand 2).map (mk a)

/-- Format F3: three operand words, fetched in ascending order (30_encoding.md R50, 40_step_and_operands.md R71). -/
def operands3 {ε : Type} (operand : Nat → Except ε Word) (mk : Word → Word → Word → Instr) : Except ε Instr :=
  (operand 1).bind fun a => (operand 2).bind fun b => (operand 3).map (mk a b)

/-- The opcode map (30_encoding.md R53): what the opcode word `op` selects, its operand words taken from `operand`
(word k of the instruction is `operand k`). The whole 16-bit word is compared (R52), and it is checked before any
operand word is asked for (40_step_and_operands.md R71). -/
def decodeOp {ε : Type} (op : Word) (unknown : ε) (operand : Nat → Except ε Word) : Except ε Instr :=
  match op.toNat with
  | 0 => .ok .hlt
  | 1 => operands2 operand .set
  | 2 => operands1 operand .push
  | 3 => operands1 operand .pop
  | 4 => operands3 operand .eq
  | 5 => operands3 operand .gt
  | 6 => operands1 operand .jmp
  | 7 => operands2 operand .jt
  | 8 => operands2 operand .jf
  | 9 => operands3 operand .add
  | 10 => operands3 operand .mul
  | 11 => operands3 operand .mod
  | 12 => operands3 operand .and
  | 13 => operands3 operand .or
  | 14 => operands2 operand .not
  | 15 => operands2 operand .rmem
  | 16 => operands2 operand .wmem
  | 17 => operands1 operand .call
  | 18 => .ok .ret
  | 19 => operands1 operand .out
  | 20 => operands1 operand .inp
  | 21 => .ok .noop
  | _ => .error unknown

/-- The opcode value of an instruction (30_encoding.md R53). -/
def Instr.opcode : Instr → Word
  | .hlt => 0
  | .set .. => 1
  | .push .. => 2
  | .pop .. => 3
  | .eq .. => 4
  | .gt .. => 5
  | .jmp .. => 6
  | .jt .. => 7
  | .jf .. => 8
  | .add .. => 9
  | .mul .. => 10
  | .mod .. => 11
  | .and .. => 12
  | .or .. => 13
  | .not .. => 14
  | .rmem .. => 15
  | .wmem .. => 16
  | .call .. => 17
  | .ret => 18
  | .out .. => 19
  | .inp .. => 20
  | .noop => 21

/-- The raw operand words, in order (30_encoding.md R50, R53). -/
def Instr.operands : Instr → List Word
  | .hlt | .ret | .noop => []
  | .push a | .pop a | .jmp a | .call a | .out a | .inp a => [a]
  | .set a b | .jt a b | .jf a b | .not a b | .rmem a b | .wmem a b => [a, b]
  | .eq a b c | .gt a b c | .add a b c | .mul a b c | .mod a b c | .and a b c | .or a b c => [a, b, c]

/-- The arity column of the opcode map, by opcode value (30_encoding.md R53); `none` for an unknown opcode (R58). -/
def arityOf (op : Word) : Option Nat :=
  match op.toNat with
  | 0 | 18 | 21 => some 0
  | 2 | 3 | 6 | 17 | 19 | 20 => some 1
  | 1 | 7 | 8 | 14 | 15 | 16 => some 2
  | 4 | 5 | 9 | 10 | 11 | 12 | 13 => some 3
  | _ => none

/-- Word number `k` of a list, or the name of what is missing. -/
def wordAt (ws : List Word) (k : Nat) : Except DecodeError Word :=
  match ws[k]? with
  | some w => .ok w
  | none => .error (.missingWord k)

/-- Decode the instruction at the head of a list of words; the words after it come back. -/
def decode (ws : List Word) : Except DecodeError (Instr × List Word) :=
  (wordAt ws 0).bind fun op =>
    (decodeOp op (.unknownOpcode op) (wordAt ws)).map fun i => (i, ws.drop (1 + i.operands.length))

/-- The words of an instruction: the opcode, then the operand words (30_encoding.md R50). -/
def encode (i : Instr) : List Word := i.opcode :: i.operands

/-- The words of a numeral numbered as the opcode table numbers them: word `k` is bits `16k+15` to `16k` (bit 0 is
the least significant bit of the first word), and every bit from `nbits` on is 0. -/
def tableWords (nbits w : Nat) : List Word :=
  (List.range Config.longestInstr).map fun k => BitVec.ofNat 16 (w % 2 ^ nbits / 2 ^ (16 * k))

/-- What the decoder reads from the opcode-table numeral `w` of `nbits` bits. -/
def decodeTableWord (nbits w : Nat) : Option Instr :=
  match decode (tableWords nbits w) with
  | .ok (i, _) => some i
  | .error _ => none

end Sys2Proof
end

