-- ==== Sys2Proof/Machine/Fetch.lean ====
section
/-! DEFINITION. The decode phase of a step, reading memory afresh (40_step_and_operands.md R71, 20_memory.md R45), and
the placing of an instruction where it is fetched. The advance of pc past the instruction is written in each meaning
(`State.advance`), so that a fault leaves pc alone (40_step_and_operands.md R79). -/

namespace Sys2Proof.Machine

/-- Word number `k` of the instruction at pc. -/
def State.fetchWord (s : State) (k : Nat) : Check Word := s.memRead (s.pc.toNat + k) .fetch

/-- The decode phase: the instruction at pc, or the state with the fault taken. The record names the opcode word only
when it was fetched (60_exceptions.md R150). -/
def State.decodePhase (s : State) : Except State Instr :=
  match s.fetchWord 0 with
  | .error cause => .error (s.takeFault none cause)
  | .ok op =>
    match decodeOp op (.invalidOpcode op) s.fetchWord with
    | .error cause => .error (s.takeFault (some op) cause)
    | .ok i => .ok i

/-- The state with words placed at pc, in a memory that reaches past them, and running: all that the next step needs
to fetch them (log 13). -/
def State.placeAtPc (s : State) (ws : List Word) : State :=
  { s with
    mem := Memory.writeAll s.mem s.pc.toNat ws
    params := { s.params with memSize := max s.params.memSize (s.pc.toNat + ws.length) }
    status := .running }

end Sys2Proof.Machine
end

