-- ==== Sys2Proof/Machine/Step.lean ====
section
/-! DEFINITION. One step: decode, then execute (40_step_and_operands.md R70). -/

namespace Sys2Proof.Machine

/-- One step. No step is taken unless `status = Running` (40_step_and_operands.md R70; log 7). -/
def step (s : State) : Host.Outcome State Fault Refusal :=
  if s.isRunning then
    match s.decodePhase with
    | .ok i => exec i s
    | .error t => .next t
  else .fault .runEnded

/-- The state in which the very next step fetches and runs the opcode-table numeral `w` of `nbits` bits (log 13). -/
def State.withFetchWord (s : State) (nbits w : Nat) : State := s.placeAtPc (tableWords nbits w)

end Sys2Proof.Machine
end

