-- ==== Sys2Proof/Machine/HostPort.lean ====
section
/-! DEFINITION. The one act of the host during a run that changes what the core does: its answer to a pending line
request (47_io.md R133, R136; 70_reset_and_hazards.md R185, R186; log 17). And what the host sees after the run. -/

namespace Sys2Proof.Machine

/-- The next step is an `In` with a legal destination, an empty buffer and no answer yet (47_io.md R136). -/
def State.waitingForLine (s : State) : Bool :=
  s.isRunning && s.inbuf.isEmpty && s.answers.isEmpty &&
    match s.decodePhase with
    | .ok (.inp a) => match dst a with
      | .ok _ => true
      | .error _ => false
    | _ => false

/-- The host answers a pending request, an empty line being end of stream; it offers nothing that was not asked for
(70_reset_and_hazards.md R186). -/
def State.answerLine (s : State) (line : List Byte) : Option State :=
  if s.waitingForLine then some { s with answers := [line] } else none

/-- The run result (60_exceptions.md R161): none while the run goes on. -/
inductive RunResult where
  | haltedNormally (reason : HaltReason)
  | abortedByFault (record : FaultRecord)
deriving DecidableEq, Repr

/-- What the host reads at the end of a run (60_exceptions.md R161, 70_reset_and_hazards.md R185). -/
def State.runResult (s : State) : Option RunResult :=
  match s.status with
  | .running => none
  | .halted reason => some (.haltedNormally reason)
  | .faulted record => some (.abortedByFault record)

/-- The final state read-out, from the end of the run until reset (70_reset_and_hazards.md R185, 10_state.md R26): none
while the run goes on (70_reset_and_hazards.md R186). -/
def State.finalState (s : State) : Option State := if s.isRunning then none else some s

end Sys2Proof.Machine
end

