-- ==== Sys2Proof/Machine/Load.lean ====
section
/-! DEFINITION. How a run starts: the image file's bytes (70_reset_and_hazards.md R183), the image load (R181), reset
and entry point (R180, R182; log 13, log 14, log 15). -/

namespace Sys2Proof.Machine

/-- Why a load is refused and no run starts. -/
inductive LoadRefusal where
  /-- The image file has an odd number of bytes (70_reset_and_hazards.md R183). -/
  | oddByteLength
  /-- The image has more than 32768 words (70_reset_and_hazards.md R181). -/
  | imageTooLong (words : Nat)
  /-- `MEM_SIZE` is not between the image's length and 32768 (00_scope.md R6; log 15). -/
  | memSizeOutOfRange (memSize : Nat)
  /-- A run is on, in which the host has no access to memory (70_reset_and_hazards.md R186). -/
  | runInProgress
deriving DecidableEq, Repr

/-- The words of an image file: `byte[2i] + 256 * byte[2i + 1]`; an odd length is refused
(70_reset_and_hazards.md R183). -/
def imageOfBytes : List Byte → Except LoadRefusal (List Word)
  | [] => .ok []
  | [_] => .error .oddByteLength
  | lo :: hi :: rest => (imageOfBytes rest).map fun ws => BitVec.ofNat 16 (lo.toNat + 256 * hi.toNat) :: ws

/-- What the load leaves: `mem[i] = image[i]`, the other cells 0, in a memory of `MEM_SIZE` words; the words are not
checked (70_reset_and_hazards.md R181, 20_memory.md R35). The host reaches it through `boot` and `State.restart` alone. -/
def State.withImage (s : State) (image : List Word) (p : Config.Params) : Except LoadRefusal State :=
  if Config.maxMemSize < image.length then .error (.imageTooLong image.length)
  else if p.memSize < image.length ∨ Config.maxMemSize < p.memSize then .error (.memSizeOutOfRange p.memSize)
  else .ok { s with mem := Memory.writeAll [] 0 image, params := p }

/-- The first run's first state: reset, with the image loaded, the parameters of the run, and the host's answers
(00_scope.md R6, 70_reset_and_hazards.md R180, R181). -/
def boot (image : List Word) (p : Config.Params) (answers : List (List Byte)) : Except LoadRefusal State :=
  State.withImage { State.reset with answers := answers } image p

/-- Reset for a new run, the only way out of a halt or a fault: offered on an ended run alone (60_exceptions.md R162,
91_not_in_source.md N20), and only together with the load, so that the first step comes after both and the run has a
freshly loaded memory (70_reset_and_hazards.md R180, R185, 10_state.md R26; log 14). -/
def State.restart (s : State) (image : List Word) (p : Config.Params) : Option (Except LoadRefusal State) :=
  if s.isRunning then none else some (s.resetCore.withImage image p)

/-- The host's load of an image for a new run: the restart, refused while a run is on (70_reset_and_hazards.md R185,
R186, 92_eei_decisions.md D20). -/
def State.load (s : State) (image : List Word) (p : Config.Params) : Except LoadRefusal State :=
  (s.restart image p).getD (.error .runInProgress)

end Sys2Proof.Machine
end

