-- ==== Sys2Proof/Safety.lean ====
section
/-! DEFINITION. What claims are stated in: the invariant of the reachable states, and what the end of a run is. -/

namespace Sys2Proof.Machine

/-- The record of a faulted state names the state's own pc, and lacks the opcode word only when the opcode fetch itself
was out of bounds (40_step_and_operands.md R79, 60_exceptions.md R150). -/
abbrev State.RecordOk (s : State) : Prop :=
  match s.status with
  | .faulted r => r.faultPc = s.pc ∧ (r.opcode = none → r.cause = .outOfBounds s.pc.toNat .fetch)
  | .running => True
  | .halted _ => True

/-- The stack holds no more words than `STACK_DEPTH`, when that is finite (10_state.md R15). -/
abbrev State.StackFits (s : State) : Prop :=
  match s.params.stackDepth with
  | none => True
  | some d => s.stack.length ≤ d

/-- The invariant every step keeps. -/
structure State.Inv (s : State) : Prop where
  /-- `MEM_SIZE <= 32768` (00_scope.md R6). -/
  memSize_le : s.params.memSize ≤ 32768
  /-- The memory is in canonical form (log 1). -/
  mem_wf : Memory.wf s.mem
  /-- No cell outside the memory is listed (10_state.md R22). -/
  mem_below : ∀ c ∈ s.mem, c.1 < s.params.memSize
  /-- 10_state.md R16. -/
  pc_le : s.pc.toNat ≤ 32768
  /-- 10_state.md R16. -/
  stack_le : ∀ w ∈ s.stack, w.toNat ≤ 32768
  /-- 10_state.md R15. -/
  stack_fits : s.StackFits
  /-- 40_step_and_operands.md R79. -/
  record_ok : s.RecordOk

/-- The run has ended (60_exceptions.md R161). -/
def State.Ended (s : State) : Prop := s.status ≠ .running

/-- The run was aborted by a fault (60_exceptions.md R150). -/
def State.Aborted (s : State) : Prop := ∃ r, s.status = .faulted r

/-- The run ended gracefully (60_exceptions.md R160). -/
def State.HaltedGracefully (s : State) : Prop := ∃ reason, s.status = .halted reason

end Sys2Proof.Machine
end

