-- ==== Sys2Proof/WellFormed.lean ====
section
/-! DEFINITION. When every operand word of an instruction is legal in its role (30_encoding.md R55, R56, R59). The
decoder accepts the others too (30_encoding.md R57): they run, and fault when they are used (log 16). -/

namespace Sys2Proof

/-- A source word is legal unless it is an invalid word, 32776 to 65535 (30_encoding.md R55, R59). -/
def sourceLegal (w : Word) : Bool := w.toNat < 32776

/-- A destination word is legal when `w mod 32768` is a register number (30_encoding.md R56, R59). -/
def destLegal (w : Word) : Bool := w.toNat % 32768 < 8

/-- Every operand is legal in its role, by the roles of the opcode map (30_encoding.md R53). -/
def Instr.wellFormed : Instr → Bool
  | .hlt => true
  | .set a b => destLegal a && sourceLegal b
  | .push a => sourceLegal a
  | .pop a => destLegal a
  | .eq a b c => destLegal a && sourceLegal b && sourceLegal c
  | .gt a b c => destLegal a && sourceLegal b && sourceLegal c
  | .jmp a => sourceLegal a
  | .jt a b => sourceLegal a && sourceLegal b
  | .jf a b => sourceLegal a && sourceLegal b
  | .add a b c => destLegal a && sourceLegal b && sourceLegal c
  | .mul a b c => destLegal a && sourceLegal b && sourceLegal c
  | .mod a b c => destLegal a && sourceLegal b && sourceLegal c
  | .and a b c => destLegal a && sourceLegal b && sourceLegal c
  | .or a b c => destLegal a && sourceLegal b && sourceLegal c
  | .not a b => destLegal a && sourceLegal b
  | .rmem a b => destLegal a && sourceLegal b
  | .wmem a b => sourceLegal a && sourceLegal b
  | .call a => sourceLegal a
  | .ret => true
  | .out a => sourceLegal a
  | .inp a => destLegal a
  | .noop => true

end Sys2Proof
end

