-- ==== Sys2Proof/Certificates/Slice0/Obligations.lean ====
section
/-! DEFINITION. The statements for the provers. The relations of namespace Sys2Proof.Spec say the operand rules and the
ends of a step in plain numbers, apart from the definitions the machine is run with. -/

namespace Sys2Proof.Spec

open Sys2Proof.Machine

/-- The source word `w` has the value `v` in `s`: a literal is itself, a register reference is the register's contents
(40_step_and_operands.md R74). -/
abbrev ReadsAs (s : State) (w : Word) (v : Nat) : Prop :=
  (w.toNat ≤ 32767 ∧ v = w.toNat) ∨ ∃ r : RegIdx, w.toNat = 32768 + r.val ∧ v = (s.regs.get r).toNat

/-- The source word is invalid: 32776 to 65535 (40_step_and_operands.md R74). -/
abbrev InvalidSource (w : Word) : Prop := 32776 ≤ w.toNat

/-- The destination word names register `i`: the literal `i` or the reference `32768 + i` (40_step_and_operands.md R75). -/
abbrev NamesReg (w : Word) (i : RegIdx) : Prop := w.toNat = i.val ∨ w.toNat = 32768 + i.val

/-- The destination word names no register (40_step_and_operands.md R75). -/
abbrev NamesNone (w : Word) : Prop := 8 ≤ w.toNat % 32768

/-- `s` with a fault taken: only the status differs, and the record names the cause, `s`'s own pc and the opcode word,
if it was fetched (60_exceptions.md R150, 40_step_and_operands.md R79). -/
abbrev faultState (s : State) (opcode : Option Word) (cause : FaultCause) : State :=
  { s with status := .faulted ⟨cause, s.pc, opcode⟩ }

/-- `t` is `s` but for pc, which is past an instruction of `words` words, and register `i`, which holds `v`. -/
def WritesOnly (s : State) (words : Nat) (i : RegIdx) (v : Nat) (t : State) : Prop :=
  t = { s with pc := s.pc + BitVec.ofNat 16 words, regs := t.regs } ∧ (t.regs.get i).toNat = v ∧
    ∀ j, j ≠ i → t.regs.get j = s.regs.get j

/-- The stack is not full (10_state.md R15): `STACK_DEPTH` is unbounded or is not the number of words it holds. -/
abbrev StackHasRoom (s : State) : Prop := s.params.stackDepth ≠ some s.stack.length

/-- The rule of a three-operand instruction of opcode `op` whose result is `f`, with its faults in order. -/
def BinaryRule (op : Word) (mk : Word → Word → Word → Instr) (f : Nat → Nat → Nat) : Prop :=
  ∀ (a b c : Word) (s : State),
    encode (mk a b c) = [op, a, b, c] ∧
    (∀ i vb vc, NamesReg a i → ReadsAs s b vb → ReadsAs s c vc →
      ∃ t, exec (mk a b c) s = .next t ∧ WritesOnly s 4 i (f vb vc) t) ∧
    (NamesNone a → exec (mk a b c) s = .next (faultState s (some op) (.invalidRegister a))) ∧
    (∀ i, NamesReg a i → InvalidSource b →
      exec (mk a b c) s = .next (faultState s (some op) (.invalidOperand b .b))) ∧
    (∀ i vb, NamesReg a i → ReadsAs s b vb → InvalidSource c →
      exec (mk a b c) s = .next (faultState s (some op) (.invalidOperand c .c)))

/-- The rule of a conditional jump of opcode `op`, taken when `taken` holds of the condition's value. -/
def ConditionalJumpRule (op : Word) (mk : Word → Word → Instr) (taken : Nat → Prop) : Prop :=
  ∀ (a b : Word) (s : State),
    encode (mk a b) = [op, a, b] ∧
    (∀ cond t, ReadsAs s a cond → taken cond → ReadsAs s b t →
      exec (mk a b) s = .next { s with pc := BitVec.ofNat 16 t }) ∧
    (∀ cond, ReadsAs s a cond → ¬ taken cond → exec (mk a b) s = .next { s with pc := s.pc + 3 }) ∧
    (InvalidSource a → exec (mk a b) s = .next (faultState s (some op) (.invalidOperand a .a))) ∧
    (∀ cond, ReadsAs s a cond → taken cond → InvalidSource b →
      exec (mk a b) s = .next (faultState s (some op) (.invalidOperand b .b)))

/-- The destination operand word of the twelve register-writing instructions (10_state.md R12, 30_encoding.md R56). -/
def destOf : Instr → Option Word
  | .set a _ | .pop a | .eq a _ _ | .gt a _ _ | .add a _ _ | .mul a _ _ | .mod a _ _ | .and a _ _ | .or a _ _
  | .not a _ | .rmem a _ | .inp a => some a
  | .hlt | .push _ | .jmp _ | .jt _ _ | .jf _ _ | .wmem _ _ | .call _ | .ret | .out _ | .noop => none

/-- The source operand words, each with its position (30_encoding.md R53, R56). -/
def sourcesOf : Instr → List (OperandPos × Word)
  | .hlt | .ret | .noop | .pop _ | .inp _ => []
  | .push a | .jmp a | .call a | .out a => [(.a, a)]
  | .set _ b | .not _ b | .rmem _ b => [(.b, b)]
  | .jt a b | .jf a b | .wmem a b => [(.a, a), (.b, b)]
  | .eq _ b c | .gt _ b c | .add _ b c | .mul _ b c | .mod _ b c | .and _ b c | .or _ b c => [(.b, b), (.c, c)]

/-- All eight registers are 0. -/
abbrev RegsAllZero (s : State) : Prop := ∀ i, s.regs.get i = 0

/-- The bytes still to be delivered to `In`: the buffer, then the host's answers (47_io.md R135). -/
abbrev inputStream (s : State) : List Byte := s.inbuf ++ s.answers.flatten

/-- The words of an instruction as the opcode table numbers them: bit 0 is the least significant bit of the first word,
and a later word's bits count on from it. -/
def tableNumeral : List Word → Nat
  | [] => 0
  | w :: ws => w.toNat + 65536 * tableNumeral ws

/-- The `n` words fetched from pc on (40_step_and_operands.md R71). -/
abbrev wordsAtPc (s : State) (n : Nat) : List Word := (List.range n).map fun k => Memory.read s.mem (s.pc.toNat + k)

end Sys2Proof.Spec

open Sys2Proof Sys2Proof.Machine Sys2Proof.Spec

/-! ### Encoding -/

/-- 30_encoding.md R50, R53: every operand word comes back whole, whatever words follow, and from the numeral of the
opcode table too. -/
def Obligations.DecodeOfEncodeGivesInstructionBack : Prop :=
  (∀ (i : Instr) (rest : List Word), decode (encode i ++ rest) = .ok (i, rest)) ∧
  ∀ i : Instr, decodeTableWord (16 * (encode i).length) (tableNumeral (encode i)) = some i

/-- 30_encoding.md R50, R52: the opcode alone gives the length, so that the words of a program are those of one list of
instructions only. -/
def Obligations.ProgramWordsDetermineInstructions : Prop :=
  ∀ p q : List Instr, p.flatMap encode = q.flatMap encode → p = q

/-- 30_encoding.md R60 ("one-to-one with the encoding"): what decodes to an instruction is its encoding. -/
def Obligations.EncodeOfDecodedGivesWordsBack : Prop :=
  ∀ (ws rest : List Word) (i : Instr), decode ws = .ok (i, rest) → ws = encode i ++ rest

/-- 30_encoding.md R58. -/
def Obligations.UnknownOpcodeRaisesInvalidOpcode : Prop :=
  (∀ (op : Word) (rest : List Word), 22 ≤ op.toNat → decode (op :: rest) = .error (.unknownOpcode op)) ∧
  ∀ s : State, s.status = .running → s.pc.toNat < s.params.memSize →
    22 ≤ (Memory.read s.mem s.pc.toNat).toNat →
    step s = .next (faultState s (some (Memory.read s.mem s.pc.toNat)) (.invalidOpcode (Memory.read s.mem s.pc.toNat)))

/-- Words written out from the opcode map (30_encoding.md R53), one of each family. -/
def Obligations.OpcodeMapWordsDecode : Prop :=
  decode [1, 32769, 5] = .ok (.set 32769 5, []) ∧
  decode [2, 32768] = .ok (.push 32768, []) ∧
  decode [5, 32768, 5, 3] = .ok (.gt 32768 5 3, []) ∧
  decode [7, 32768, 20] = .ok (.jt 32768 20, []) ∧
  decode [9, 32768, 32768, 1, 0] = .ok (.add 32768 32768 1, [0]) ∧
  decode [16, 4, 66, 19, 65, 0] = .ok (.wmem 4 66, [19, 65, 0]) ∧
  decode [17, 5] = .ok (.call 5, []) ∧
  decode [20, 32768] = .ok (.inp 32768, []) ∧
  decode [21, 0] = .ok (.noop, [0])

/-! ### The step -/

/-- When the words of an instruction stand at pc, all inside memory, the step of a running machine is the execution of
that instruction in that state (40_step_and_operands.md R70); the advance of pc is part of each meaning. -/
def Obligations.StepRunsInstructionAtPc : Prop :=
  ∀ (i : Instr) (s : State), s.status = .running →
    s.pc.toNat + (encode i).length ≤ s.params.memSize →
    wordsAtPc s (encode i).length = encode i →
    step s = exec i s

/-- 40_step_and_operands.md R71: the decode phase's faults in order, and what it hands to the execute phase. -/
def Obligations.DecodePhaseFetchesAndFaultsInOrder : Prop :=
  ∀ s : State, s.status = .running →
    (s.params.memSize ≤ s.pc.toNat → step s = .next (faultState s none (.outOfBounds s.pc.toNat .fetch))) ∧
    ∀ op : Word, s.pc.toNat < s.params.memSize → Memory.read s.mem s.pc.toNat = op →
      (21 < op.toNat → step s = .next (faultState s (some op) (.invalidOpcode op))) ∧
      ∀ n : Nat, arityOf op = some n →
        (s.params.memSize ≤ s.pc.toNat + n →
          step s = .next (faultState s (some op) (.outOfBounds s.params.memSize .fetch))) ∧
        (s.pc.toNat + n < s.params.memSize →
          ∃ i : Instr, i.opcode = op ∧ decode (wordsAtPc s (1 + n)) = .ok (i, []) ∧ step s = exec i s)

/-- An ended machine takes no step (40_step_and_operands.md R70; the form of the answer is log 7), and a running one has a
next state. R70 gives the three outcomes of a step; for an `In` whose line the host has not given, 47_io.md R133 and
92_eei_decisions.md D22 say that the step is not enabled, and that the model answers the unchanged state there is the
model's reading (log 5). -/
def Obligations.StepIsTakenExactlyWhileRunning : Prop :=
  ∀ s : State, (s.status = .running → ∃ t, step s = .next t) ∧ (s.status ≠ .running → step s = .fault .runEnded)

/-- 40_step_and_operands.md R79. -/
def Obligations.FaultingStepWritesNothing : Prop :=
  ∀ (s t : State) (r : FaultRecord), step s = .next t → t.status = .faulted r →
    t = { s with status := .faulted r } ∧ t.pc = s.pc ∧ r.faultPc = s.pc

/-- 60_exceptions.md R160: exactly three causes, what each writes, and the reason codes. -/
def Obligations.GracefulHaltHasThreeCauses : Prop :=
  (∀ (s t : State) (reason : HaltReason), step s = .next t → t.status = .halted reason →
    (reason = .hltInstruction ∧ Memory.read s.mem s.pc.toNat = 0 ∧
      t = { s with pc := s.pc + 1, status := .halted .hltInstruction }) ∨
    (reason = .retEmptyStack ∧ Memory.read s.mem s.pc.toNat = 18 ∧ s.stack = [] ∧
      t = { s with pc := s.pc + 1, status := .halted .retEmptyStack }) ∨
    (reason = .inputExhausted ∧ Memory.read s.mem s.pc.toNat = 20 ∧ s.inbuf = [] ∧
      ∃ more, s.answers = [] :: more ∧
        t = { s with pc := s.pc + 2, answers := more, status := .halted .inputExhausted })) ∧
  HaltReason.hltInstruction.code = 0 ∧ HaltReason.retEmptyStack.code = 1 ∧ HaltReason.inputExhausted.code = 2

/-! ### What no instruction, or only some, may change -/

/-- 10_state.md R12: a register changes only as the destination of one of the twelve instructions. -/
def Obligations.RegisterChangesOnlyAsDestination : Prop :=
  ∀ (i : Instr) (s t : State) (j : RegIdx), exec i s = .next t →
    (∀ a, destOf i = some a → ¬ NamesReg a j) → t.regs.get j = s.regs.get j

/-- 20_memory.md R34, R35: a cell changes only at the address a `Wmem` resolves, and then to a value of at most 32767.
The canonical form is the invariant of StepKeepsReachableInvariant. -/
def Obligations.MemoryChangesOnlyAtWmemAddress : Prop :=
  ∀ (i : Instr) (s t : State) (addr : Nat), Memory.wf s.mem → exec i s = .next t →
    Memory.read t.mem addr ≠ Memory.read s.mem addr →
    ∃ a b, i = .wmem a b ∧ ReadsAs s a addr ∧ ReadsAs s b (Memory.read t.mem addr).toNat ∧
      (Memory.read t.mem addr).toNat ≤ 32767

/-- 10_state.md R15, R23, R24, 20_memory.md R30, 47_io.md R130: the stack changes only in Push, Pop, Call and Ret, the
input only in In, the output only in Out, which appends, and the parameters never. -/
def Obligations.StackChannelsAndParamsFrame : Prop :=
  ∀ (i : Instr) (s t : State), exec i s = .next t →
    t.params = s.params ∧
    (t.stack ≠ s.stack → (∃ a, i = .push a) ∨ (∃ a, i = .pop a) ∨ (∃ a, i = .call a) ∨ i = .ret) ∧
    (t.inbuf ≠ s.inbuf ∨ t.answers ≠ s.answers → ∃ a, i = .inp a) ∧
    (t.out ≠ s.out → ∃ a b, i = .out a ∧ t.out = s.out ++ [b])

/-- The invariant of the reachable states (10_state.md R16, R15, 00_scope.md R6, 40_step_and_operands.md R79, and the
canonical form of memory, log 1) is kept by every step. -/
def Obligations.StepKeepsReachableInvariant : Prop :=
  ∀ s t : State, s.Inv → step s = .next t → t.Inv

/-- The invariant holds after reset (the memory size there is the model's choice, log 2). -/
def Obligations.ResetMeetsReachableInvariant : Prop := State.reset.Inv

/-- 60_exceptions.md R153, R158: an instruction whose operand words are all legal never raises a decode or operand
fault. -/
def Obligations.LegalOperandsNeverRaiseOperandFaults : Prop :=
  ∀ (i : Instr) (s t : State) (r : FaultRecord), i.wellFormed = true → s.status = .running →
    exec i s = .next t → t.status = .faulted r →
    r.cause.kind ≠ .invalidOperand ∧ r.cause.kind ≠ .invalidRegister ∧ r.cause.kind ≠ .invalidOpcode

/-- 60_exceptions.md R151 to R158: which instruction's execution can raise which kind, and the numeric codes. -/
def Obligations.FaultKindsRaisedByInstructions : Prop :=
  (∀ (i : Instr) (s t : State) (r : FaultRecord), s.status = .running → exec i s = .next t → t.status = .faulted r →
    r.opcode = some i.opcode ∧
    match r.cause with
    | .invalidOpcode _ => False
    | .invalidOperand w pos => (pos, w) ∈ sourcesOf i ∧ InvalidSource w
    | .outOfBounds addr access => s.params.memSize ≤ addr ∧
        ((∃ a b, i = .rmem a b ∧ access = .dataRead ∧ ReadsAs s b addr) ∨
         (∃ a b, i = .wmem a b ∧ access = .dataWrite ∧ ReadsAs s a addr))
    | .divisionByZero => ∃ a b c, i = .mod a b c ∧ ReadsAs s c 0
    | .stackUnderflow => (∃ a, i = .pop a) ∧ s.stack = []
    | .invalidRegister w => destOf i = some w ∧ NamesNone w
    | .stackOverflow => ((∃ a, i = .push a) ∨ ∃ a, i = .call a) ∧ s.params.stackDepth = some s.stack.length) ∧
  FaultKind.invalidOpcode.code = 1 ∧ FaultKind.invalidOperand.code = 2 ∧ FaultKind.outOfBounds.code = 3 ∧
  FaultKind.divisionByZero.code = 4 ∧ FaultKind.stackUnderflow.code = 5 ∧ FaultKind.invalidRegister.code = 6 ∧
  FaultKind.stackOverflow.code = 7

/-! ### Set, Push, Pop (41_set_stack.md) -/

/-- 41_set_stack.md R90. -/
def Obligations.SetCopiesSourceToDestination : Prop :=
  ∀ (a b : Word) (s : State),
    encode (.set a b) = [1, a, b] ∧
    (∀ i v, NamesReg a i → ReadsAs s b v → ∃ t, exec (.set a b) s = .next t ∧ WritesOnly s 3 i v t) ∧
    (NamesNone a → exec (.set a b) s = .next (faultState s (some 1) (.invalidRegister a))) ∧
    (∀ i, NamesReg a i → InvalidSource b → exec (.set a b) s = .next (faultState s (some 1) (.invalidOperand b .b)))

/-- 41_set_stack.md R91. -/
def Obligations.PushPushesResolvedValue : Prop :=
  ∀ (a : Word) (s : State),
    encode (.push a) = [2, a] ∧
    (∀ v, ReadsAs s a v → StackHasRoom s →
      exec (.push a) s = .next { s with pc := s.pc + 2, stack := BitVec.ofNat 16 v :: s.stack }) ∧
    (InvalidSource a → exec (.push a) s = .next (faultState s (some 2) (.invalidOperand a .a))) ∧
    (∀ v, ReadsAs s a v → ¬ StackHasRoom s → exec (.push a) s = .next (faultState s (some 2) .stackOverflow))

/-- 41_set_stack.md R92. -/
def Obligations.PopWritesTopModulo32768 : Prop :=
  ∀ (a : Word) (s : State),
    encode (.pop a) = [3, a] ∧
    (∀ i w rest, NamesReg a i → s.stack = w :: rest →
      ∃ t, exec (.pop a) s = .next t ∧ WritesOnly { s with stack := rest } 2 i (w.toNat % 32768) t) ∧
    (NamesNone a → exec (.pop a) s = .next (faultState s (some 3) (.invalidRegister a))) ∧
    (∀ i, NamesReg a i → s.stack = [] → exec (.pop a) s = .next (faultState s (some 3) .stackUnderflow))

/-! ### Eq, Gt (42_compare.md) -/

/-- 42_compare.md R100. -/
def Obligations.EqWritesOneExactlyWhenEqual : Prop := BinaryRule 4 .eq fun vb vc => if vb = vc then 1 else 0

/-- 42_compare.md R101. -/
def Obligations.GtWritesOneExactlyWhenGreater : Prop := BinaryRule 5 .gt fun vb vc => if vb > vc then 1 else 0

/-! ### Jmp, Jt, Jf (43_jumps.md) -/

/-- 43_jumps.md R105. -/
def Obligations.JmpGoesToResolvedTarget : Prop :=
  ∀ (a : Word) (s : State),
    encode (.jmp a) = [6, a] ∧
    (∀ t, ReadsAs s a t → exec (.jmp a) s = .next { s with pc := BitVec.ofNat 16 t }) ∧
    (InvalidSource a → exec (.jmp a) s = .next (faultState s (some 6) (.invalidOperand a .a)))

/-- 43_jumps.md R106. -/
def Obligations.JtJumpsWhenConditionNotZero : Prop := ConditionalJumpRule 7 .jt fun cond => cond ≠ 0

/-- 43_jumps.md R107. -/
def Obligations.JfJumpsWhenConditionZero : Prop := ConditionalJumpRule 8 .jf fun cond => cond = 0

/-- 43_jumps.md R108 (b): a jump out of memory succeeds, and the next step faults at the target. -/
def Obligations.JumpOutOfMemoryFaultsAtNextStep : Prop :=
  ∀ (a : Word) (t : Nat) (s : State), s.status = .running → ReadsAs s a t → s.params.memSize ≤ t →
    ∃ u, exec (.jmp a) s = .next u ∧ u.status = .running ∧ u.pc.toNat = t ∧
      step u = .next (faultState u none (.outOfBounds t .fetch))

/-! ### Add, Mul, Mod, And, Or, Not (44_alu.md) -/

/-- 44_alu.md R110. -/
def Obligations.AddWritesSumModulo32768 : Prop := BinaryRule 9 .add fun vb vc => (vb + vc) % 32768

/-- 44_alu.md R111. -/
def Obligations.MulWritesProductModulo32768 : Prop := BinaryRule 10 .mul fun vb vc => (vb * vc) % 32768

/-- 44_alu.md R112. -/
def Obligations.ModWritesRemainderOrDividesByZero : Prop :=
  ∀ (a b c : Word) (s : State),
    encode (.mod a b c) = [11, a, b, c] ∧
    (∀ i vb vc, NamesReg a i → ReadsAs s b vb → ReadsAs s c vc → vc ≠ 0 →
      ∃ t, exec (.mod a b c) s = .next t ∧ WritesOnly s 4 i (vb % vc) t) ∧
    (NamesNone a → exec (.mod a b c) s = .next (faultState s (some 11) (.invalidRegister a))) ∧
    (∀ i, NamesReg a i → InvalidSource b →
      exec (.mod a b c) s = .next (faultState s (some 11) (.invalidOperand b .b))) ∧
    (∀ i vb, NamesReg a i → ReadsAs s b vb → InvalidSource c →
      exec (.mod a b c) s = .next (faultState s (some 11) (.invalidOperand c .c))) ∧
    (∀ i vb, NamesReg a i → ReadsAs s b vb → ReadsAs s c 0 →
      exec (.mod a b c) s = .next (faultState s (some 11) .divisionByZero))

/-- 44_alu.md R113. -/
def Obligations.AndWritesBitwiseAnd : Prop := BinaryRule 12 .and fun vb vc => vb &&& vc

/-- 44_alu.md R114. -/
def Obligations.OrWritesBitwiseOr : Prop := BinaryRule 13 .or fun vb vc => vb ||| vc

/-- 44_alu.md R115; the last clause is "`Not` is self-inverse", run as two instructions. -/
def Obligations.NotWritesFifteenBitComplement : Prop :=
  ∀ (a b : Word) (s : State),
    encode (.not a b) = [14, a, b] ∧
    (∀ i v, NamesReg a i → ReadsAs s b v → ∃ t, exec (.not a b) s = .next t ∧ WritesOnly s 3 i (32767 - v) t) ∧
    (NamesNone a → exec (.not a b) s = .next (faultState s (some 14) (.invalidRegister a))) ∧
    (∀ i, NamesReg a i → InvalidSource b →
      exec (.not a b) s = .next (faultState s (some 14) (.invalidOperand b .b))) ∧
    (∀ (c d : Word) (i j : RegIdx) (v : Nat), NamesReg a i → ReadsAs s b v → d.toNat = 32768 + i.val → NamesReg c j →
      ∃ t u, exec (.not a b) s = .next t ∧ exec (.not c d) t = .next u ∧ (u.regs.get j).toNat = v)

/-! ### Rmem, Wmem (45_memory_ops.md) -/

/-- 45_memory_ops.md R120. -/
def Obligations.RmemWritesMemoryWordModulo32768 : Prop :=
  ∀ (a b : Word) (s : State),
    encode (.rmem a b) = [15, a, b] ∧
    (∀ i addr, NamesReg a i → ReadsAs s b addr → addr < s.params.memSize →
      ∃ t, exec (.rmem a b) s = .next t ∧ WritesOnly s 3 i ((Memory.read s.mem addr).toNat % 32768) t) ∧
    (NamesNone a → exec (.rmem a b) s = .next (faultState s (some 15) (.invalidRegister a))) ∧
    (∀ i, NamesReg a i → InvalidSource b →
      exec (.rmem a b) s = .next (faultState s (some 15) (.invalidOperand b .b))) ∧
    (∀ i addr, NamesReg a i → ReadsAs s b addr → s.params.memSize ≤ addr →
      exec (.rmem a b) s = .next (faultState s (some 15) (.outOfBounds addr .dataRead)))

/-- 45_memory_ops.md R121. The canonical form is the invariant of StepKeepsReachableInvariant. -/
def Obligations.WmemStoresValueAtAddressOnly : Prop :=
  ∀ (a b : Word) (s : State),
    encode (.wmem a b) = [16, a, b] ∧
    (∀ addr v, Memory.wf s.mem → ReadsAs s a addr → ReadsAs s b v → addr < s.params.memSize →
      ∃ t, exec (.wmem a b) s = .next t ∧ t = { s with pc := s.pc + 3, mem := t.mem } ∧
        (Memory.read t.mem addr).toNat = v ∧
        ∀ other, other ≠ addr → Memory.read t.mem other = Memory.read s.mem other) ∧
    (InvalidSource a → exec (.wmem a b) s = .next (faultState s (some 16) (.invalidOperand a .a))) ∧
    (∀ addr, ReadsAs s a addr → InvalidSource b →
      exec (.wmem a b) s = .next (faultState s (some 16) (.invalidOperand b .b))) ∧
    (∀ addr v, ReadsAs s a addr → ReadsAs s b v → s.params.memSize ≤ addr →
      exec (.wmem a b) s = .next (faultState s (some 16) (.outOfBounds addr .dataWrite)))

/-- 20_memory.md R47: what `Wmem` stored, `Rmem` reads back, in every state `u` reached with that cell unchanged. -/
def Obligations.RmemReadsBackWhatWmemStored : Prop :=
  ∀ (a b c d : Word) (addr v : Nat) (i : RegIdx) (s : State), Memory.wf s.mem →
    ReadsAs s a addr → ReadsAs s b v → addr < s.params.memSize → NamesReg c i →
    ∃ t, exec (.wmem a b) s = .next t ∧
      ∀ u : State, Memory.read u.mem addr = Memory.read t.mem addr → u.params = t.params → ReadsAs u d addr →
        ∃ w, exec (.rmem c d) u = .next w ∧ (w.regs.get i).toNat = v

/-- 20_memory.md R45: every later fetch of the stored address, the very next one included, sees the store, as long as
that cell is unchanged. -/
def Obligations.StoreSeenByLaterFetch : Prop :=
  ∀ (a b : Word) (addr v : Nat) (s : State), Memory.wf s.mem →
    ReadsAs s a addr → ReadsAs s b v → addr < s.params.memSize →
    ∃ t, exec (.wmem a b) s = .next t ∧
      ∀ (u : State) (k : Nat), Memory.read u.mem addr = Memory.read t.mem addr → u.params = t.params →
        u.pc.toNat + k = addr → u.fetchWord k = .ok (BitVec.ofNat 16 v)

/-- 20_memory.md R46: a store over one of its own three words, opcode included, does not change the step in progress. -/
def Obligations.StoreOverOwnWordsCompletes : Prop :=
  ∀ (a b : Word) (k v : Nat) (s : State), s.status = .running → Memory.wf s.mem →
    s.pc.toNat + 3 ≤ s.params.memSize → wordsAtPc s 3 = [16, a, b] → k < 3 →
    ReadsAs s a (s.pc.toNat + k) → ReadsAs s b v →
    ∃ t, step s = .next t ∧ t.status = .running ∧ t.pc = s.pc + 3 ∧ t.regs = s.regs ∧
      (Memory.read t.mem (s.pc.toNat + k)).toNat = v

/-! ### Call, Ret (46_call_ret.md) -/

/-- 46_call_ret.md R125. -/
def Obligations.CallPushesReturnAddressAndJumps : Prop :=
  ∀ (a : Word) (s : State),
    encode (.call a) = [17, a] ∧
    (∀ t, ReadsAs s a t → StackHasRoom s →
      exec (.call a) s = .next { s with pc := BitVec.ofNat 16 t, stack := (s.pc + 2) :: s.stack }) ∧
    (InvalidSource a → exec (.call a) s = .next (faultState s (some 17) (.invalidOperand a .a))) ∧
    (∀ t, ReadsAs s a t → ¬ StackHasRoom s → exec (.call a) s = .next (faultState s (some 17) .stackOverflow))

/-- 46_call_ret.md R126; the last clause is "`Call` then `Ret` with no intervening stack manipulation". -/
def Obligations.RetPopsTargetOrHalts : Prop :=
  ∀ s : State,
    encode .ret = [18] ∧
    (∀ w rest, s.stack = w :: rest → exec .ret s = .next { s with pc := w, stack := rest }) ∧
    (s.stack = [] → exec .ret s = .next { s with pc := s.pc + 1, status := .halted .retEmptyStack }) ∧
    (∀ (a : Word) (target : Nat), ReadsAs s a target → StackHasRoom s →
      ∃ t, exec (.call a) s = .next t ∧
        ∀ u : State, u.stack = t.stack → ∃ w, exec .ret u = .next w ∧ w.pc = s.pc + 2 ∧ w.stack = s.stack)

/-! ### Out, In (47_io.md) -/

/-- 47_io.md R131. -/
def Obligations.OutEmitsLowByte : Prop :=
  ∀ (a : Word) (s : State),
    encode (.out a) = [19, a] ∧
    (∀ v, ReadsAs s a v →
      exec (.out a) s = .next { s with pc := s.pc + 2, out := s.out ++ [BitVec.ofNat 8 (v % 256)] }) ∧
    (InvalidSource a → exec (.out a) s = .next (faultState s (some 19) (.invalidOperand a .a)))

/-- 47_io.md R134, with the host's answers as the model holds them (log 4, DESIGN CHOICE); the last clause is the wait of
R136, in which the host has not answered (log 5). -/
def Obligations.InDeliversNextInputByte : Prop :=
  ∀ (a : Word) (s : State),
    encode (.inp a) = [20, a] ∧
    (∀ i b rest, NamesReg a i → s.inbuf = b :: rest →
      ∃ t, exec (.inp a) s = .next t ∧ WritesOnly { s with inbuf := rest } 2 i b.toNat t) ∧
    (∀ i b rest more, NamesReg a i → s.inbuf = [] → s.answers = (b :: rest) :: more →
      ∃ t, exec (.inp a) s = .next t ∧ WritesOnly { s with inbuf := rest, answers := more } 2 i b.toNat t) ∧
    (∀ i more, NamesReg a i → s.inbuf = [] → s.answers = [] :: more →
      exec (.inp a) s = .next { s with pc := s.pc + 2, answers := more, status := .halted .inputExhausted }) ∧
    (NamesNone a → exec (.inp a) s = .next (faultState s (some 20) (.invalidRegister a))) ∧
    (∀ i, NamesReg a i → s.inbuf = [] → s.answers = [] → exec (.inp a) s = .next s)

/-- 47_io.md R135: the input is delivered in order, each byte once, and only to `In`'s destination. -/
def Obligations.InputDeliveredInOrder : Prop :=
  ∀ s t : State, step s = .next t →
    inputStream t = inputStream s ∨
    ∃ (a : Word) (i : RegIdx) (b : Byte), Memory.read s.mem s.pc.toNat = 20 ∧
      Memory.read s.mem (s.pc.toNat + 1) = a ∧ NamesReg a i ∧ inputStream s = b :: inputStream t ∧
      (t.regs.get i).toNat = b.toNat

/-- 47_io.md R136: a waiting machine does not change, and the host's answer alone ends the wait. -/
def Obligations.WaitEndsOnlyByAnswer : Prop :=
  ∀ s : State, s.waitingForLine = true →
    step s = .next s ∧
    ∀ line : List Byte, ∃ u t, s.answerLine line = some u ∧ step u = .next t ∧
      (line = [] → t.status = .halted .inputExhausted) ∧
      (∀ b rest, line = b :: rest → t.status = .running ∧ t.inbuf = rest ∧ t.pc = s.pc + 2)

/-! ### Hlt, Noop (48_halt_noop.md) -/

/-- 48_halt_noop.md R140: in execution, and as a whole step from memory. -/
def Obligations.HltHaltsTheMachine : Prop :=
  encode .hlt = [0] ∧
  (∀ s : State, exec .hlt s = .next { s with pc := s.pc + 1, status := .halted .hltInstruction }) ∧
  ∀ s : State, s.status = .running → s.pc.toNat < s.params.memSize → Memory.read s.mem s.pc.toNat = 0 →
    ∃ t, step s = .next t ∧ t = { s with pc := s.pc + 1, status := .halted .hltInstruction } ∧ step t = .fault .runEnded

/-- 48_halt_noop.md R141: in execution, and as a whole step from memory. -/
def Obligations.NoopOnlyAdvancesPc : Prop :=
  encode .noop = [21] ∧
  (∀ s : State, exec .noop s = .next { s with pc := s.pc + 1 }) ∧
  ∀ s : State, s.status = .running → s.pc.toNat < s.params.memSize → Memory.read s.mem s.pc.toNat = 21 →
    step s = .next { s with pc := s.pc + 1 }

/-! ### Reset and load (10_state.md R25, 70_reset_and_hazards.md) -/

/-- 10_state.md R25: the state before the first step, for every image and every memory size the spec allows. -/
def Obligations.BootGivesStatedResetState : Prop :=
  ∀ (image : List Word) (p : Config.Params) (answers : List (List Byte)),
    image.length ≤ p.memSize → p.memSize ≤ 32768 →
    ∃ s, boot image p answers = .ok s ∧ RegsAllZero s ∧ s.stack = [] ∧ s.pc = 0 ∧
      (∀ i, ∀ h : i < image.length, Memory.read s.mem i = image[i]) ∧
      (∀ i, image.length ≤ i → i < p.memSize → Memory.read s.mem i = 0) ∧
      s.inbuf = [] ∧ s.status = .running ∧ s.out = []

/-- The first state of every run meets the invariant (10_state.md R16, 00_scope.md R6; log 1), with the parameters it was
given. -/
def Obligations.BootMeetsReachableInvariant : Prop :=
  ∀ (image : List Word) (p : Config.Params) (answers : List (List Byte)) (s : State),
    boot image p answers = .ok s → s.Inv ∧ s.params = p ∧ s.answers = answers

/-- 70_reset_and_hazards.md R181: a longer image is refused. (The refusal of a memory size outside the range of
00_scope.md R6 is the model's reading, log 15.) -/
def Obligations.LoadRefusesLongImageOrBadSize : Prop :=
  ∀ (image : List Word) (p : Config.Params) (answers : List (List Byte)),
    (32768 < image.length → boot image p answers = .error (.imageTooLong image.length)) ∧
    (image.length ≤ 32768 → (p.memSize < image.length ∨ 32768 < p.memSize) →
      boot image p answers = .error (.memSizeOutOfRange p.memSize))

/-- 70_reset_and_hazards.md R183. -/
def Obligations.ImageBytesAreLittleEndianPairs : Prop :=
  ∀ bytes : List Byte,
    (bytes.length % 2 = 1 → imageOfBytes bytes = .error .oddByteLength) ∧
    (bytes.length % 2 = 0 → ∃ ws, imageOfBytes bytes = .ok ws ∧ 2 * ws.length = bytes.length ∧
      ∀ i, (ws[i]?).map BitVec.toNat =
        (bytes[2 * i]?).bind fun lo => (bytes[2 * i + 1]?).map fun hi => lo.toNat + 256 * hi.toNat)

/-- 10_state.md R25, 70_reset_and_hazards.md R180: the fields of the state right after reset that the spec states, and
in the last clause one that it does not: reset gives memory no contents (R180, 92_eei_decisions.md D19), and that every
address reads 0 before a load is the model's choice (log 13, with log 1). -/
def Obligations.ResetFieldsAsStated : Prop :=
  RegsAllZero State.reset ∧ State.reset.stack = [] ∧ State.reset.pc = 0 ∧ State.reset.inbuf = [] ∧
  State.reset.status = .running ∧ State.reset.out = [] ∧ ∀ a, Memory.read State.reset.mem a = 0

/-- 60_exceptions.md R162, 70_reset_and_hazards.md R180, R181, 10_state.md R26: after the end of a run reset, with its
load, leads to the stated reset values over a freshly loaded memory, for every image and memory size the spec allows.
That reset is not offered while the machine runs is the model's choice (log 14; 91_not_in_source.md N20 leaves that case
open), as is that the host's coming answers stay (log 14, log 4). -/
def Obligations.RestartOnlyFromEndedRun : Prop :=
  ∀ (s : State) (image : List Word) (p : Config.Params),
    (s.status = .running → s.restart image p = none) ∧
    (s.status ≠ .running → image.length ≤ p.memSize → p.memSize ≤ 32768 →
      ∃ t, s.restart image p = some (.ok t) ∧ t.status = .running ∧ RegsAllZero t ∧ t.pc = 0 ∧
        t.stack = [] ∧ t.inbuf = [] ∧ t.out = [] ∧
        (∀ i, ∀ h : i < image.length, Memory.read t.mem i = image[i]) ∧
        (∀ i, image.length ≤ i → i < p.memSize → Memory.read t.mem i = 0) ∧
        t.params = p ∧ t.answers = s.answers)

/-- 70_reset_and_hazards.md R186, R185: while a run is on the host can load nothing and reads neither a result nor a final
state, and its one act is the answer to a pending request, which touches `answers` alone (log 4, log 17). That a reset
is not offered either is the model's choice (log 14). -/
def Obligations.RunningMachineTakesOnlyLineAnswers : Prop :=
  ∀ s : State, s.status = .running →
    (∀ (image : List Word) (p : Config.Params),
      s.load image p = .error .runInProgress ∧ s.restart image p = none) ∧
    s.runResult = none ∧ s.finalState = none ∧
    ∀ line : List Byte,
      (s.waitingForLine = false → s.answerLine line = none) ∧
      (s.waitingForLine = true → s.answerLine line = some { s with answers := [line] })

/-- 10_state.md R26, 70_reset_and_hazards.md R180, R181: after the end of a run the host reads its result and its
unchanged state, and a load with reset starts a run that carries nothing over from it. What the host will answer is the
host's and stays (log 14). -/
def Obligations.LoadAfterRunStartsAfresh : Prop :=
  ∀ s : State, s.status ≠ .running →
    (∃ r, s.runResult = some r ∧
      ((∃ reason, s.status = .halted reason ∧ r = .haltedNormally reason) ∨
        ∃ record, s.status = .faulted record ∧ r = .abortedByFault record)) ∧
    s.finalState = some s ∧
    ∀ (image : List Word) (p : Config.Params), s.load image p = boot image p s.answers

/-- The next step after `withFetchWord` runs the instruction the decoder reads from the same numeral (log 13). -/
def Obligations.FetchWordStepRunsDecodedTableWord : Prop :=
  ∀ (s : State) (nbits w : Nat) (i : Instr), Memory.wf s.mem → decodeTableWord nbits w = some i →
    step (s.withFetchWord nbits w) = exec i (s.withFetchWord nbits w)
end

