-- ==== Sys2Proof/Laws/Decode.lean ====
section
/-! SUPPORT. Everything the opcode map can answer, for any supplier of operand words. -/

namespace Sys2Proof

variable {ε : Type} (operand : Nat → Except ε Word)

theorem operands1_eq_ok_iff (mk : Word → Instr) (i : Instr) :
    operands1 operand mk = .ok i ↔ ∃ a, operand 1 = .ok a ∧ i = mk a := by
  unfold operands1
  cases operand 1 <;> simp [Except.map, eq_comm]

theorem operands2_eq_ok_iff (mk : Word → Word → Instr) (i : Instr) :
    operands2 operand mk = .ok i ↔ ∃ a b, operand 1 = .ok a ∧ operand 2 = .ok b ∧ i = mk a b := by
  unfold operands2
  cases operand 1 <;> cases operand 2 <;> simp [Except.bind, Except.map, eq_comm]

theorem operands3_eq_ok_iff (mk : Word → Word → Word → Instr) (i : Instr) :
    operands3 operand mk = .ok i ↔
      ∃ a b c, operand 1 = .ok a ∧ operand 2 = .ok b ∧ operand 3 = .ok c ∧ i = mk a b c := by
  unfold operands3
  cases operand 1 <;> cases operand 2 <;> cases operand 3 <;> simp [Except.bind, Except.map, eq_comm]

/-- One of the operand words 1 to `n` is the first that is not supplied, and `e` says so. -/
def FirstMissing (n : Nat) (e : ε) : Prop :=
  ∃ k < n, operand (k + 1) = .error e ∧ ∀ j < k, ∃ w, operand (j + 1) = .ok w

theorem firstMissing_zero (e : ε) : ¬ FirstMissing operand 0 e := by
  simp [FirstMissing]

theorem firstMissing_succ (n : Nat) (e : ε) :
    FirstMissing operand (n + 1) e ↔
      FirstMissing operand n e ∨ operand (n + 1) = .error e ∧ ∀ j < n, ∃ w, operand (j + 1) = .ok w := by
  simp only [FirstMissing, Nat.lt_succ_iff_lt_or_eq, or_and_right, exists_or, exists_eq_left]

theorem operands1_eq_error_iff (mk : Word → Instr) (e : ε) :
    operands1 operand mk = .error e ↔ FirstMissing operand 1 e := by
  rw [firstMissing_succ _ 0]
  unfold operands1
  cases operand 1 <;> simp [Except.map, firstMissing_zero]

theorem operands2_eq_error_iff (mk : Word → Word → Instr) (e : ε) :
    operands2 operand mk = .error e ↔ FirstMissing operand 2 e := by
  rw [firstMissing_succ _ 1, firstMissing_succ _ 0]
  unfold operands2
  cases h1 : operand 1 <;> cases operand 2 <;> simp [Except.bind, Except.map, firstMissing_zero, h1]

theorem operands3_eq_error_iff (mk : Word → Word → Word → Instr) (e : ε) :
    operands3 operand mk = .error e ↔ FirstMissing operand 3 e := by
  have two : (∀ j < 2, ∃ w, operand (j + 1) = .ok w) ↔ (∃ w, operand 1 = .ok w) ∧ ∃ w, operand 2 = .ok w :=
    ⟨fun h => ⟨h 0 (by omega), h 1 (by omega)⟩, fun h j hj => by
      rcases (by omega : j = 0 ∨ j = 1) with rfl | rfl
      exacts [h.1, h.2]⟩
  rw [firstMissing_succ _ 2, firstMissing_succ _ 1, firstMissing_succ _ 0, two]
  unfold operands3
  cases h1 : operand 1 <;> cases operand 2 <;> cases operand 3 <;>
    simp [Except.bind, Except.map, firstMissing_zero, h1]

/-- An instruction comes out of the opcode map exactly when its own opcode went in and every one of its operand words
was supplied, in order. -/
theorem decodeOp_eq_ok_iff (op : Word) (unknown : ε) (i : Instr) :
    decodeOp op unknown operand = .ok i ↔
      op = i.opcode ∧ ∀ k, ∀ h : k < i.operands.length, operand (k + 1) = .ok i.operands[k] := by
  constructor
  · intro h
    unfold decodeOp at h
    split at h
    case h_23 => cases h
    all_goals
      rename_i ho
      first
      | cases h
      | obtain ⟨a, ha, rfl⟩ := (operands1_eq_ok_iff operand _ _).1 h
      | obtain ⟨a, b, ha, hb, rfl⟩ := (operands2_eq_ok_iff operand _ _).1 h
      | obtain ⟨a, b, c, ha, hb, hc, rfl⟩ := (operands3_eq_ok_iff operand _ _).1 h
      refine ⟨BitVec.eq_of_toNat_eq ho, fun k hk => ?_⟩
      simp only [Instr.operands, List.length_cons, List.length_nil] at hk ⊢
      match k with
      | 0 => first | omega | exact ha
      | 1 => first | omega | exact hb
      | 2 => first | omega | exact hc
      | k + 3 => omega
  · rintro ⟨rfl, h⟩
    cases i
    all_goals
      first
      | rfl
      | exact (operands1_eq_ok_iff operand _ _).2 ⟨_, h 0 (by simp [Instr.operands]), rfl⟩
      | exact (operands2_eq_ok_iff operand _ _).2 ⟨_, _, h 0 (by simp [Instr.operands]), h 1 (by simp [Instr.operands]), rfl⟩
      | exact (operands3_eq_ok_iff operand _ _).2 ⟨_, _, _, h 0 (by simp [Instr.operands]), h 1 (by simp [Instr.operands]), h 2 (by simp [Instr.operands]), rfl⟩

theorem arityOf_eq_none_iff (op : Word) : arityOf op = none ↔ 21 < op.toNat := by
  unfold arityOf
  split
  all_goals
    simp only [reduceCtorEq, false_iff, true_iff, imp_false] at *
    omega

/-- The opcode map faults on an opcode above 21, before any operand word is asked for, or with the first operand word
that is not supplied (40_step_and_operands.md R71). -/
theorem decodeOp_eq_error_iff (op : Word) (unknown e : ε) :
    decodeOp op unknown operand = .error e ↔
      (21 < op.toNat ∧ e = unknown) ∨ ∃ n, arityOf op = some n ∧ FirstMissing operand n e := by
  unfold decodeOp
  split
  case h_23 h0 h1 h2 h3 h4 h5 h6 h7 h8 h9 h10 h11 h12 h13 h14 h15 h16 h17 h18 h19 h20 h21 =>
    have h : 21 < op.toNat := by
      simp only [imp_false] at *
      omega
    simp [h, (arityOf_eq_none_iff op).2 h, eq_comm]
  all_goals
    rename_i ho
    simp [arityOf, ho, operands1_eq_error_iff, operands2_eq_error_iff, operands3_eq_error_iff, firstMissing_zero]

/-- The arity of an instruction's opcode is the number of its operands (30_encoding.md R53). -/
theorem arityOf_opcode (i : Instr) : arityOf i.opcode = some i.operands.length := by
  cases i <;> rfl

theorem encode_length (i : Instr) : (encode i).length = 1 + i.operands.length := by
  simp [encode, Nat.add_comm]

end Sys2Proof
end

