-- ==== Sys2Proof/Laws/State.lean ====
section
/-! SUPPORT. What each update of the state leaves in each field: true by unfolding, so that no later proof unfolds a
record update. -/

namespace Sys2Proof.Machine

variable (s : State)

@[simp] theorem State.writeReg_regs (i : RegIdx) (n : Nat) : (s.writeReg i n).regs = s.regs.set i (BitVec.ofNat 15 n) := rfl
@[simp] theorem State.writeReg_pc (i : RegIdx) (n : Nat) : (s.writeReg i n).pc = s.pc := rfl
@[simp] theorem State.writeReg_stack (i : RegIdx) (n : Nat) : (s.writeReg i n).stack = s.stack := rfl
@[simp] theorem State.writeReg_mem (i : RegIdx) (n : Nat) : (s.writeReg i n).mem = s.mem := rfl
@[simp] theorem State.writeReg_inbuf (i : RegIdx) (n : Nat) : (s.writeReg i n).inbuf = s.inbuf := rfl
@[simp] theorem State.writeReg_status (i : RegIdx) (n : Nat) : (s.writeReg i n).status = s.status := rfl
@[simp] theorem State.writeReg_out (i : RegIdx) (n : Nat) : (s.writeReg i n).out = s.out := rfl
@[simp] theorem State.writeReg_params (i : RegIdx) (n : Nat) : (s.writeReg i n).params = s.params := rfl
@[simp] theorem State.writeReg_answers (i : RegIdx) (n : Nat) : (s.writeReg i n).answers = s.answers := rfl

@[simp] theorem State.advance_regs (n : Nat) : (s.advance n).regs = s.regs := rfl
@[simp] theorem State.advance_pc (n : Nat) : (s.advance n).pc = s.pc + BitVec.ofNat 16 n := rfl
@[simp] theorem State.advance_stack (n : Nat) : (s.advance n).stack = s.stack := rfl
@[simp] theorem State.advance_mem (n : Nat) : (s.advance n).mem = s.mem := rfl
@[simp] theorem State.advance_inbuf (n : Nat) : (s.advance n).inbuf = s.inbuf := rfl
@[simp] theorem State.advance_status (n : Nat) : (s.advance n).status = s.status := rfl
@[simp] theorem State.advance_out (n : Nat) : (s.advance n).out = s.out := rfl
@[simp] theorem State.advance_params (n : Nat) : (s.advance n).params = s.params := rfl
@[simp] theorem State.advance_answers (n : Nat) : (s.advance n).answers = s.answers := rfl

@[simp] theorem State.jump_regs (t : Word) : (s.jump t).regs = s.regs := rfl
@[simp] theorem State.jump_pc (t : Word) : (s.jump t).pc = t := rfl
@[simp] theorem State.jump_stack (t : Word) : (s.jump t).stack = s.stack := rfl
@[simp] theorem State.jump_mem (t : Word) : (s.jump t).mem = s.mem := rfl
@[simp] theorem State.jump_inbuf (t : Word) : (s.jump t).inbuf = s.inbuf := rfl
@[simp] theorem State.jump_status (t : Word) : (s.jump t).status = s.status := rfl
@[simp] theorem State.jump_out (t : Word) : (s.jump t).out = s.out := rfl
@[simp] theorem State.jump_params (t : Word) : (s.jump t).params = s.params := rfl
@[simp] theorem State.jump_answers (t : Word) : (s.jump t).answers = s.answers := rfl

@[simp] theorem State.emit_regs (b : Byte) : (s.emit b).regs = s.regs := rfl
@[simp] theorem State.emit_pc (b : Byte) : (s.emit b).pc = s.pc := rfl
@[simp] theorem State.emit_stack (b : Byte) : (s.emit b).stack = s.stack := rfl
@[simp] theorem State.emit_mem (b : Byte) : (s.emit b).mem = s.mem := rfl
@[simp] theorem State.emit_inbuf (b : Byte) : (s.emit b).inbuf = s.inbuf := rfl
@[simp] theorem State.emit_status (b : Byte) : (s.emit b).status = s.status := rfl
@[simp] theorem State.emit_out (b : Byte) : (s.emit b).out = s.out ++ [b] := rfl
@[simp] theorem State.emit_params (b : Byte) : (s.emit b).params = s.params := rfl
@[simp] theorem State.emit_answers (b : Byte) : (s.emit b).answers = s.answers := rfl

@[simp] theorem State.halt_regs (reason : HaltReason) : (s.halt reason).regs = s.regs := rfl
@[simp] theorem State.halt_pc (reason : HaltReason) : (s.halt reason).pc = s.pc := rfl
@[simp] theorem State.halt_stack (reason : HaltReason) : (s.halt reason).stack = s.stack := rfl
@[simp] theorem State.halt_mem (reason : HaltReason) : (s.halt reason).mem = s.mem := rfl
@[simp] theorem State.halt_inbuf (reason : HaltReason) : (s.halt reason).inbuf = s.inbuf := rfl
@[simp] theorem State.halt_status (reason : HaltReason) : (s.halt reason).status = .halted reason := rfl
@[simp] theorem State.halt_out (reason : HaltReason) : (s.halt reason).out = s.out := rfl
@[simp] theorem State.halt_params (reason : HaltReason) : (s.halt reason).params = s.params := rfl
@[simp] theorem State.halt_answers (reason : HaltReason) : (s.halt reason).answers = s.answers := rfl

@[simp] theorem State.takeFault_regs (op : Option Word) (cause : FaultCause) : (s.takeFault op cause).regs = s.regs := rfl
@[simp] theorem State.takeFault_pc (op : Option Word) (cause : FaultCause) : (s.takeFault op cause).pc = s.pc := rfl
@[simp] theorem State.takeFault_stack (op : Option Word) (cause : FaultCause) : (s.takeFault op cause).stack = s.stack := rfl
@[simp] theorem State.takeFault_mem (op : Option Word) (cause : FaultCause) : (s.takeFault op cause).mem = s.mem := rfl
@[simp] theorem State.takeFault_inbuf (op : Option Word) (cause : FaultCause) : (s.takeFault op cause).inbuf = s.inbuf := rfl
@[simp] theorem State.takeFault_status (op : Option Word) (cause : FaultCause) : (s.takeFault op cause).status = .faulted ⟨cause, s.pc, op⟩ := rfl
@[simp] theorem State.takeFault_out (op : Option Word) (cause : FaultCause) : (s.takeFault op cause).out = s.out := rfl
@[simp] theorem State.takeFault_params (op : Option Word) (cause : FaultCause) : (s.takeFault op cause).params = s.params := rfl
@[simp] theorem State.takeFault_answers (op : Option Word) (cause : FaultCause) : (s.takeFault op cause).answers = s.answers := rfl

end Sys2Proof.Machine
end

