-- ==== Sys2Proof/Laws/Memory.lean ====
section
/-! SUPPORT. Memory: read after write, the frame of a write, and that every memory operation keeps the canonical form. -/

namespace Sys2Proof.Machine

@[simp] theorem Memory.read_nil (a : Nat) : Memory.read [] a = 0#16 := rfl

theorem Memory.read_eq_zero_of_not_listed (m : Memory) (a : Nat) (h : ∀ c ∈ m, c.1 ≠ a) : Memory.read m a = 0#16 := by
  induction m with
  | nil => rfl
  | cons c m ih =>
    have hc : a ≠ c.1 := fun e => h c (by simp) e.symm
    simp [Memory.read, hc, ih fun d hd => h d (by simp [hd])]

/-- A write leaves every other address alone, whatever the list. -/
theorem Memory.read_write_ne (m : Memory) (a b : Nat) (v : Word) (h : b ≠ a) :
    Memory.read (Memory.write m a v) b = Memory.read m b := by
  induction m with
  | nil => by_cases hv : v = 0#16 <;> simp [Memory.write, Memory.read, hv, h]
  | cons c m ih =>
    obtain ⟨k, w⟩ := c
    simp only [Memory.write]
    split
    · split <;> simp [Memory.read, h]
    · split
      · next hk =>
        subst hk
        split <;> simp [Memory.read, h]
      · simp [Memory.read, ih]

/-- In the canonical form, a read after a write to the same address gives the word written. -/
theorem Memory.read_write_same (m : Memory) (a : Nat) (v : Word) (h : Memory.wf m) :
    Memory.read (Memory.write m a v) a = v := by
  induction m with
  | nil => by_cases hv : v = 0#16 <;> simp [Memory.write, Memory.read, hv]
  | cons c m ih =>
    obtain ⟨k, w⟩ := c
    obtain ⟨hs, hz⟩ := h
    rw [List.pairwise_cons] at hs
    simp only [Memory.write]
    split
    · next hlt =>
      split
      · next hv =>
        subst hv
        refine Memory.read_eq_zero_of_not_listed _ _ fun d hd => ?_
        rcases List.mem_cons.1 hd with rfl | hd
        · exact (ne_of_lt hlt).symm
        · have := hs.1 d hd
          simp only at this
          omega
      · simp [Memory.read]
    · split
      · next hk =>
        subst hk
        split
        · next hv =>
          subst hv
          exact Memory.read_eq_zero_of_not_listed _ _ fun d hd => (ne_of_lt (hs.1 d hd)).symm
        · simp [Memory.read]
      · next hk =>
        simp only [Memory.read, hk, if_false]
        exact ih ⟨hs.2, fun d hd => hz d (by simp [hd])⟩

/-- A listed cell of the result is the written one or was listed before. -/
theorem Memory.mem_write (m : Memory) (a : Nat) (v : Word) (c : Nat × Word) (h : c ∈ Memory.write m a v) :
    (c = (a, v) ∧ v ≠ Memory.unlisted) ∨ c ∈ m := by
  induction m with
  | nil =>
    by_cases hv : v = 0#16 <;> simp_all [Memory.write]
  | cons d m ih =>
    obtain ⟨k, w⟩ := d
    simp only [Memory.write] at h
    split at h
    · split at h
      · exact .inr h
      · next hv =>
        rcases List.mem_cons.1 h with h | h
        · exact .inl ⟨h, hv⟩
        · exact .inr h
    · split at h
      · next hk =>
        subst hk
        split at h
        · exact .inr (List.mem_cons_of_mem _ h)
        · next hv =>
          rcases List.mem_cons.1 h with h | h
          · exact .inl ⟨h, hv⟩
          · exact .inr (List.mem_cons_of_mem _ h)
      · rcases List.mem_cons.1 h with h | h
        · exact .inr (by simp [h])
        · rcases ih h with h | h
          · exact .inl h
          · exact .inr (List.mem_cons_of_mem _ h)

/-- A write keeps the canonical form. -/
theorem Memory.wf_write (m : Memory) (a : Nat) (v : Word) (h : Memory.wf m) : Memory.wf (Memory.write m a v) := by
  obtain ⟨hs, hz⟩ := h
  refine ⟨?_, fun c hc => ?_⟩
  · induction m with
    | nil => by_cases hv : v = 0#16 <;> simp [Memory.write, hv]
    | cons d m ih =>
      obtain ⟨k, w⟩ := d
      have hs' := List.pairwise_cons.1 hs
      simp only [Memory.write]
      split
      · next hlt =>
        split
        · exact hs
        · refine List.pairwise_cons.2 ⟨fun c hc => ?_, hs⟩
          rcases List.mem_cons.1 hc with rfl | hc
          · exact hlt
          · exact lt_trans hlt (hs'.1 c hc)
      · split
        · next hk =>
          split
          · exact hs'.2
          · exact List.pairwise_cons.2 ⟨hs'.1, hs'.2⟩
        · refine List.pairwise_cons.2 ⟨fun c hc => ?_, ih hs'.2 fun c hc => hz c (by simp [hc])⟩
          rcases Memory.mem_write m a v c hc with ⟨rfl, -⟩ | hc
          · simp only
            omega
          · exact hs'.1 c hc
  · rcases Memory.mem_write m a v c hc with ⟨rfl, hv⟩ | hc
    · exact hv
    · exact hz c hc

theorem Memory.wf_nil : Memory.wf [] := ⟨.nil, by simp⟩

/-- Writing a list of words keeps the canonical form. -/
theorem Memory.wf_writeAll (m : Memory) (a : Nat) (ws : List Word) (h : Memory.wf m) :
    Memory.wf (Memory.writeAll m a ws) := by
  induction ws generalizing m a with
  | nil => exact h
  | cons w ws ih => exact ih _ _ (Memory.wf_write m a w h)

/-- Outside the written range, a read gives what it gave before. -/
theorem Memory.read_writeAll_outside (m : Memory) (a b : Nat) (ws : List Word) (h : b < a ∨ a + ws.length ≤ b) :
    Memory.read (Memory.writeAll m a ws) b = Memory.read m b := by
  induction ws generalizing m a with
  | nil => rfl
  | cons w ws ih =>
    simp only [List.length_cons] at h
    rw [Memory.writeAll, ih _ _ (by omega), Memory.read_write_ne _ _ _ _ (by omega)]

/-- Inside the written range, a read gives the word written there. -/
theorem Memory.read_writeAll_inside (m : Memory) (a : Nat) (ws : List Word) (k : Nat) (hm : Memory.wf m)
    (h : k < ws.length) : Memory.read (Memory.writeAll m a ws) (a + k) = ws[k] := by
  induction ws generalizing m a k with
  | nil => simp at h
  | cons w ws ih =>
    cases k with
    | zero =>
      rw [Memory.writeAll, Memory.read_writeAll_outside _ _ _ _ (by omega), Nat.add_zero,
        Memory.read_write_same _ _ _ hm]
      rfl
    | succ k =>
      have := ih (Memory.write m a w) (a + 1) k (Memory.wf_write _ _ _ hm) (by simpa using h)
      rw [Memory.writeAll, show a + (k + 1) = a + 1 + k by omega, this]
      rfl

/-- A listed address after writing a list of words was listed before or is in the written range. -/
theorem Memory.mem_writeAll (m : Memory) (a : Nat) (ws : List Word) (c : Nat × Word)
    (h : c ∈ Memory.writeAll m a ws) : c ∈ m ∨ (a ≤ c.1 ∧ c.1 < a + ws.length) := by
  induction ws generalizing m a with
  | nil => exact .inl h
  | cons w ws ih =>
    simp only [List.length_cons]
    rcases ih _ _ h with h | h
    · rcases Memory.mem_write _ _ _ _ h with ⟨rfl, -⟩ | h
      · exact .inr ⟨le_refl _, by simp only; omega⟩
      · exact .inl h
    · exact .inr (by omega)

end Sys2Proof.Machine
end

