-- ==== Sys2Proof/Laws/Regs.lean ====
section
/-! SUPPORT. The register file: a read gives what was last written to that register, and no other register changes. -/

namespace Sys2Proof.Machine

@[simp] theorem Regs.get_set_same (r : Regs) (i : RegIdx) (v : Val) : (r.set i v).get i = v := by
  match i with
  | 0 | 1 | 2 | 3 | 4 | 5 | 6 | 7 => rfl

theorem Regs.get_set_ne (r : Regs) (i j : RegIdx) (v : Val) (h : j ≠ i) : (r.set i v).get j = r.get j := by
  match i, j with
  | 0, 0 | 1, 1 | 2, 2 | 3, 3 | 4, 4 | 5, 5 | 6, 6 | 7, 7 => exact absurd rfl h
  | 0, 1 | 0, 2 | 0, 3 | 0, 4 | 0, 5 | 0, 6 | 0, 7 | 1, 0 | 1, 2 | 1, 3 | 1, 4 | 1, 5 | 1, 6 | 1, 7
  | 2, 0 | 2, 1 | 2, 3 | 2, 4 | 2, 5 | 2, 6 | 2, 7 | 3, 0 | 3, 1 | 3, 2 | 3, 4 | 3, 5 | 3, 6 | 3, 7
  | 4, 0 | 4, 1 | 4, 2 | 4, 3 | 4, 5 | 4, 6 | 4, 7 | 5, 0 | 5, 1 | 5, 2 | 5, 3 | 5, 4 | 5, 6 | 5, 7
  | 6, 0 | 6, 1 | 6, 2 | 6, 3 | 6, 4 | 6, 5 | 6, 7 | 7, 0 | 7, 1 | 7, 2 | 7, 3 | 7, 4 | 7, 5 | 7, 6 => rfl

@[simp] theorem Regs.get_zero (i : RegIdx) : Regs.zero.get i = 0 := by
  match i with
  | 0 | 1 | 2 | 3 | 4 | 5 | 6 | 7 => rfl

/-- The written register holds the number modulo 32768 (40_step_and_operands.md R76). -/
theorem State.writeReg_get_same (s : State) (i : RegIdx) (n : Nat) :
    ((s.writeReg i n).regs.get i).toNat = n % 32768 := by
  simp

theorem State.writeReg_get_ne (s : State) (i j : RegIdx) (n : Nat) (h : j ≠ i) :
    (s.writeReg i n).regs.get j = s.regs.get j := Regs.get_set_ne _ _ _ _ h

end Sys2Proof.Machine
end

