-- ==== Sys2Proof/Laws/Operands.lean ====
section
/-! SUPPORT. Everything the source rule `v` and the destination rule `dst` can answer. -/

namespace Sys2Proof.Machine

/-- What `v(w)` answers when it answers a value (40_step_and_operands.md R74). -/
theorem source_eq_ok_iff (s : State) (pos : OperandPos) (w : Word) (v : Val) :
    source s pos w = .ok v ↔
      (w.toNat ≤ 32767 ∧ v.toNat = w.toNat) ∨ ∃ r : RegIdx, w.toNat = 32768 + r.val ∧ v = s.regs.get r := by
  have hw := w.isLt
  unfold source operandForm
  by_cases h1 : w.toNat < 32768
  · simp only [h1, if_true, Except.ok.injEq, BitVec.toNat_eq, BitVec.toNat_ofNat]
    rw [Nat.mod_eq_of_lt (by omega)]
    constructor
    · exact fun h => .inl ⟨by omega, h.symm⟩
    · rintro (⟨-, h⟩ | ⟨r, h, -⟩)
      · exact h.symm
      · omega
  · by_cases h2 : w.toNat - 32768 < 8
    · simp only [h1, if_false, h2, dite_true, Except.ok.injEq]
      constructor
      · exact fun h => .inr ⟨⟨_, h2⟩, by simp only; omega, h.symm⟩
      · rintro (⟨h, -⟩ | ⟨r, h, rfl⟩)
        · omega
        · exact congrArg _ (Fin.ext (by simp only; omega))
    · simp only [h1, if_false, h2, dite_false, reduceCtorEq, false_iff]
      rintro (⟨h, -⟩ | ⟨r, h, -⟩)
      · omega
      · have := r.isLt
        omega

/-- When `v(w)` faults, and with what (40_step_and_operands.md R74). -/
theorem source_eq_error_iff (s : State) (pos : OperandPos) (w : Word) (e : FaultCause) :
    source s pos w = .error e ↔ 32776 ≤ w.toNat ∧ e = .invalidOperand w pos := by
  have hw := w.isLt
  unfold source operandForm
  by_cases h1 : w.toNat < 32768
  · simp [h1]
    omega
  · by_cases h2 : w.toNat - 32768 < 8
    · simp [h1, h2]
      omega
    · simp only [h1, if_false, h2, dite_false, Except.error.injEq]
      exact ⟨fun h => ⟨by omega, h.symm⟩, fun h => h.2.symm⟩

/-- What `dst(w)` answers when it answers a register (40_step_and_operands.md R75). -/
theorem dst_eq_ok_iff (w : Word) (i : RegIdx) :
    dst w = .ok i ↔ w.toNat = i.val ∨ w.toNat = 32768 + i.val := by
  have hw := w.isLt
  have hi := i.isLt
  unfold dst
  by_cases h : w.toNat % 32768 < 8
  · simp only [h, dite_true, Except.ok.injEq, Fin.ext_iff]
    omega
  · simp only [h, dite_false, reduceCtorEq, false_iff]
    omega

/-- When `dst(w)` faults, and with what (40_step_and_operands.md R75). -/
theorem dst_eq_error_iff (w : Word) (e : FaultCause) :
    dst w = .error e ↔ 8 ≤ w.toNat % 32768 ∧ e = .invalidRegister w := by
  unfold dst
  by_cases h : w.toNat % 32768 < 8
  · simp only [h, dite_true, reduceCtorEq, false_iff]
    omega
  · simp only [h, dite_false, Except.error.injEq]
    exact ⟨fun e => ⟨by omega, e.symm⟩, fun e => e.2.symm⟩

/-- A resolved value keeps its number as a word. -/
@[simp] theorem Val.word_toNat (v : Val) : (Val.word v).toNat = v.toNat := by
  have := v.isLt
  simp only [Val.word, BitVec.toNat_ofNat]
  omega

/-- A resolved value is at most 32767 (40_step_and_operands.md R74). -/
theorem Val.toNat_le (v : Val) : v.toNat ≤ 32767 := by
  have := v.isLt
  omega

end Sys2Proof.Machine
end

