-- ==== Sys2Proof/Laws/Ops.lean ====
section
/-! SUPPORT. For each shared operation, everything it can answer. Provers cite these and do not unfold the operation. -/

namespace Sys2Proof.Machine

/-- A check sequence answers a value exactly when each part does. -/
theorem bind_eq_ok_iff {α β : Type} (x : Check α) (f : α → Check β) (y : β) :
    (x >>= f) = .ok y ↔ ∃ a, x = .ok a ∧ f a = .ok y := by
  cases x <;> simp [bind, Except.bind]

/-- A check sequence faults with the first part's fault, or with the rest's. -/
theorem bind_eq_error_iff {α β : Type} (x : Check α) (f : α → Check β) (e : FaultCause) :
    (x >>= f) = .error e ↔ x = .error e ∨ ∃ a, x = .ok a ∧ f a = .error e := by
  cases x <;> simp [bind, Except.bind]

/-- Every step's end is a next state: the effects, or the fault alone. -/
theorem State.finish_eq_next_iff (s t : State) (op : Word) (r : Check State) :
    s.finish op r = .next t ↔ r = .ok t ∨ ∃ cause, r = .error cause ∧ t = s.takeFault (some op) cause := by
  cases r with
  | ok u => simp [State.finish]
  | error cause => simp [State.finish, eq_comm]

/-- No instruction's execution is refused or left without a next state. -/
theorem State.finish_next (s : State) (op : Word) (r : Check State) : ∃ t, s.finish op r = .next t := by
  cases r with
  | ok t => exact ⟨t, rfl⟩
  | error cause => exact ⟨_, rfl⟩

theorem State.finish_ne_fault (s : State) (op : Word) (r : Check State) (f : Fault) : s.finish op r ≠ .fault f := by
  cases r <;> simp [State.finish]

theorem State.finish_ne_refused (s : State) (op : Word) (r : Check State) (f : Refusal) :
    s.finish op r ≠ .refused f := by
  cases r <;> simp [State.finish]

/-- The stack is full exactly when `STACK_DEPTH` is the number of words it holds (10_state.md R15). -/
theorem State.stackFull_iff (s : State) : s.stackFull = true ↔ s.params.stackDepth = some s.stack.length := by
  unfold State.stackFull
  cases s.params.stackDepth with
  | none => simp
  | some d => simpa using eq_comm

theorem State.push_eq_ok_iff (s t : State) (w : Word) :
    s.push w = .ok t ↔ s.params.stackDepth ≠ some s.stack.length ∧ t = { s with stack := w :: s.stack } := by
  rw [ne_eq, ← State.stackFull_iff]
  unfold State.push
  cases s.stackFull <;> simp [eq_comm (a := t)]

theorem State.push_eq_error_iff (s : State) (w : Word) (e : FaultCause) :
    s.push w = .error e ↔ s.params.stackDepth = some s.stack.length ∧ e = .stackOverflow := by
  rw [← State.stackFull_iff]
  unfold State.push
  cases s.stackFull <;> simp [eq_comm (a := e)]

theorem State.pop_eq_some_iff (s t : State) (w : Word) :
    s.pop = some (w, t) ↔ ∃ rest, s.stack = w :: rest ∧ t = { s with stack := rest } := by
  unfold State.pop
  rcases s.stack with _ | ⟨v, rest⟩
  · simp
  · simp only [Option.some.injEq, Prod.mk.injEq, List.cons.injEq]
    exact ⟨by rintro ⟨rfl, rfl⟩; exact ⟨_, ⟨rfl, rfl⟩, rfl⟩, by rintro ⟨_, ⟨rfl, rfl⟩, rfl⟩; exact ⟨rfl, rfl⟩⟩

theorem State.pop_eq_none_iff (s : State) : s.pop = none ↔ s.stack = [] := by
  unfold State.pop
  split <;> simp_all

theorem State.memRead_eq_ok_iff (s : State) (addr : Nat) (k : AccessKind) (w : Word) :
    s.memRead addr k = .ok w ↔ addr < s.params.memSize ∧ w = Memory.read s.mem addr := by
  unfold State.memRead
  split
  · simp only [reduceCtorEq, false_iff]
    omega
  · simp only [Except.ok.injEq, eq_comm (a := w), iff_and_self]
    omega

theorem State.memRead_eq_error_iff (s : State) (addr : Nat) (k : AccessKind) (e : FaultCause) :
    s.memRead addr k = .error e ↔ s.params.memSize ≤ addr ∧ e = .outOfBounds addr k := by
  unfold State.memRead
  split <;> simp_all [eq_comm]

theorem State.memWrite_eq_ok_iff (s t : State) (addr : Nat) (v : Word) :
    s.memWrite addr v = .ok t ↔ addr < s.params.memSize ∧ t = { s with mem := Memory.write s.mem addr v } := by
  unfold State.memWrite
  split
  · simp only [reduceCtorEq, false_iff]
    omega
  · simp only [Except.ok.injEq, eq_comm (a := t), iff_and_self]
    omega

theorem State.memWrite_eq_error_iff (s : State) (addr : Nat) (v : Word) (e : FaultCause) :
    s.memWrite addr v = .error e ↔ s.params.memSize ≤ addr ∧ e = .outOfBounds addr .dataWrite := by
  unfold State.memWrite
  split <;> simp_all [eq_comm]

/-- A delivered byte came from the buffer, or headed the host's answer. -/
theorem State.nextInput_eq_byte_iff (s t : State) (b : Byte) :
    s.nextInput = .byte b t ↔
      (∃ rest, s.inbuf = b :: rest ∧ t = { s with inbuf := rest }) ∨
      ∃ rest more, s.inbuf = [] ∧ s.answers = (b :: rest) :: more ∧ t = { s with inbuf := rest, answers := more } := by
  unfold State.nextInput
  rcases hs : s.inbuf with _ | ⟨c, cs⟩
  · rcases ha : s.answers with _ | ⟨_ | ⟨c, cs⟩, more⟩
    · simp
    · simp
    · simp only [InputResult.byte.injEq, List.cons.injEq, reduceCtorEq, false_and, exists_false, false_or, true_and]
      exact ⟨by rintro ⟨rfl, rfl⟩; exact ⟨_, _, ⟨⟨rfl, rfl⟩, rfl⟩, rfl⟩,
        by rintro ⟨_, _, ⟨⟨rfl, rfl⟩, rfl⟩, rfl⟩; exact ⟨rfl, rfl⟩⟩
  · simp only [InputResult.byte.injEq, List.cons.injEq, reduceCtorEq, false_and, exists_false, or_false]
    exact ⟨by rintro ⟨rfl, rfl⟩; exact ⟨_, ⟨rfl, rfl⟩, rfl⟩, by rintro ⟨_, ⟨rfl, rfl⟩, rfl⟩; exact ⟨rfl, rfl⟩⟩

theorem State.nextInput_eq_endOfStream_iff (s t : State) :
    s.nextInput = .endOfStream t ↔
      ∃ more, s.inbuf = [] ∧ s.answers = [] :: more ∧ t = { s with answers := more } := by
  unfold State.nextInput
  rcases hs : s.inbuf with _ | ⟨c, cs⟩
  · rcases ha : s.answers with _ | ⟨_ | ⟨c, cs⟩, more⟩
    · simp
    · simp only [InputResult.endOfStream.injEq, List.cons.injEq, true_and]
      exact ⟨by rintro rfl; exact ⟨_, rfl, rfl⟩, by rintro ⟨_, rfl, rfl⟩; rfl⟩
    · simp
  · simp

theorem State.nextInput_eq_waiting_iff (s : State) : s.nextInput = .waiting ↔ s.inbuf = [] ∧ s.answers = [] := by
  unfold State.nextInput
  rcases hs : s.inbuf with _ | ⟨c, cs⟩
  · rcases ha : s.answers with _ | ⟨_ | ⟨c, cs⟩, more⟩ <;> simp
  · simp

theorem State.isRunning_iff (s : State) : s.isRunning = true ↔ s.status = .running := by
  unfold State.isRunning
  split <;> simp_all

/-- A three-operand instruction ends with its result written, or with the first of its operands' faults. -/
theorem binary_eq_next_iff (op : Word) (f : Val → Val → Nat) (a b c : Word) (s t : State) :
    binary op f a b c s = .next t ↔
      (∃ i vb vc, dst a = .ok i ∧ source s .b b = .ok vb ∧ source s .c c = .ok vc ∧
        t = (s.advance 4).writeReg i (f vb vc)) ∨
      ∃ cause, t = s.takeFault (some op) cause ∧
        (dst a = .error cause ∨ (∃ i, dst a = .ok i) ∧
          (source s .b b = .error cause ∨ (∃ vb, source s .b b = .ok vb) ∧ source s .c c = .error cause)) := by
  unfold binary
  rw [State.finish_eq_next_iff]
  cases dst a <;> cases source s .b b <;> cases source s .c c <;> simp [bind, Except.bind, eq_comm, pure, Except.pure]

/-- A conditional jump ends at its target, past itself, or with a fault of an operand it used. -/
theorem jumpIf_eq_next_iff (op : Word) (taken : Bool) (a b : Word) (s t : State) :
    jumpIf op taken a b s = .next t ↔
      (∃ cond target, source s .a a = .ok cond ∧ condition cond = taken ∧ source s .b b = .ok target ∧
        t = (s.advance 3).jump (Val.word target)) ∨
      (∃ cond, source s .a a = .ok cond ∧ condition cond ≠ taken ∧ t = s.advance 3) ∨
      ∃ cause, t = s.takeFault (some op) cause ∧
        (source s .a a = .error cause ∨
          (∃ cond, source s .a a = .ok cond ∧ condition cond = taken) ∧ source s .b b = .error cause) := by
  unfold jumpIf
  rw [State.finish_eq_next_iff]
  cases h : source s .a a with
  | error e => simp [bind, Except.bind, eq_comm]
  | ok cond =>
    by_cases hc : condition cond = taken
    · cases source s .b b <;> simp [bind, Except.bind, hc, eq_comm, pure, Except.pure]
    · simp [bind, Except.bind, hc, pure, Except.pure, eq_comm (a := t)]

end Sys2Proof.Machine
end

