-- ==== Sys2Proof/Laws/Exec.lean ====
section
/-! SUPPORT. Everything each meaning can end in, in terms of the shared operations: its effect, or one of its faults in
the order it checks them (40_step_and_operands.md R77). The instructions of the shape `binary` or `jumpIf` have theirs
in Laws/Ops.lean. -/

namespace Sys2Proof.Machine

variable (a b c : Word) (s t : State)

theorem execSet_eq_next_iff :
    execSet a b s = .next t ↔
      (∃ i v, dst a = .ok i ∧ source s .b b = .ok v ∧ t = (s.advance 3).writeReg i v.toNat) ∨
      ∃ cause, t = s.takeFault (some 1) cause ∧
        (dst a = .error cause ∨ (∃ i, dst a = .ok i) ∧ source s .b b = .error cause) := by
  unfold execSet
  rw [State.finish_eq_next_iff]
  cases dst a <;> cases source s .b b <;> simp [bind, Except.bind, pure, Except.pure, eq_comm]

theorem execPush_eq_next_iff :
    execPush a s = .next t ↔
      (∃ v, source s .a a = .ok v ∧ (s.advance 2).push (Val.word v) = .ok t) ∨
      ∃ cause, t = s.takeFault (some 2) cause ∧
        (source s .a a = .error cause ∨ ∃ v, source s .a a = .ok v ∧ (s.advance 2).push (Val.word v) = .error cause) := by
  unfold execPush
  rw [State.finish_eq_next_iff]
  cases source s .a a <;> simp [bind, Except.bind, and_comm]

theorem execPop_eq_next_iff :
    execPop a s = .next t ↔
      (∃ i w u, dst a = .ok i ∧ (s.advance 2).pop = some (w, u) ∧ t = u.writeReg i w.toNat) ∨
      ∃ cause, t = s.takeFault (some 3) cause ∧
        (dst a = .error cause ∨ (∃ i, dst a = .ok i) ∧ s.stack = [] ∧ cause = .stackUnderflow) := by
  unfold execPop
  rw [State.finish_eq_next_iff]
  have hp := (s.advance 2).pop_eq_none_iff
  rw [State.advance_stack] at hp
  cases dst a <;> rcases h : (s.advance 2).pop with _ | ⟨w, u⟩ <;>
    simp_all [bind, Except.bind, pure, Except.pure, eq_comm (a := t)]

theorem execJmp_eq_next_iff :
    execJmp a s = .next t ↔
      (∃ v, source s .a a = .ok v ∧ t = (s.advance 2).jump (Val.word v)) ∨
      ∃ cause, t = s.takeFault (some 6) cause ∧ source s .a a = .error cause := by
  unfold execJmp
  rw [State.finish_eq_next_iff]
  cases source s .a a <;> simp [bind, Except.bind, pure, Except.pure, eq_comm]

theorem execMod_eq_next_iff :
    execMod a b c s = .next t ↔
      (∃ i vb vc, dst a = .ok i ∧ source s .b b = .ok vb ∧ source s .c c = .ok vc ∧ vc.toNat ≠ 0 ∧
        t = (s.advance 4).writeReg i (vb.toNat % vc.toNat)) ∨
      ∃ cause, t = s.takeFault (some 11) cause ∧
        (dst a = .error cause ∨ (∃ i, dst a = .ok i) ∧
          (source s .b b = .error cause ∨ (∃ vb, source s .b b = .ok vb) ∧
            (source s .c c = .error cause ∨
              (∃ vc, source s .c c = .ok vc ∧ vc.toNat = 0) ∧ cause = .divisionByZero))) := by
  unfold execMod modResult
  rw [State.finish_eq_next_iff]
  cases dst a with
  | error e => simp [bind, Except.bind, eq_comm]
  | ok i =>
    cases source s .b b with
    | error e => simp [bind, Except.bind, eq_comm]
    | ok vb =>
      cases source s .c c with
      | error e => simp [bind, Except.bind, eq_comm]
      | ok vc =>
        by_cases h0 : vc.toNat = 0 <;>
          simp [bind, Except.bind, pure, Except.pure, h0, eq_comm (a := t), eq_comm (a := FaultCause.divisionByZero)]

theorem execNot_eq_next_iff :
    execNot a b s = .next t ↔
      (∃ i v, dst a = .ok i ∧ source s .b b = .ok v ∧ t = (s.advance 3).writeReg i (notResult v)) ∨
      ∃ cause, t = s.takeFault (some 14) cause ∧
        (dst a = .error cause ∨ (∃ i, dst a = .ok i) ∧ source s .b b = .error cause) := by
  unfold execNot
  rw [State.finish_eq_next_iff]
  cases dst a <;> cases source s .b b <;> simp [bind, Except.bind, pure, Except.pure, eq_comm]

theorem execRmem_eq_next_iff :
    execRmem a b s = .next t ↔
      (∃ i addr w, dst a = .ok i ∧ source s .b b = .ok addr ∧ s.memRead addr.toNat .dataRead = .ok w ∧
        t = (s.advance 3).writeReg i w.toNat) ∨
      ∃ cause, t = s.takeFault (some 15) cause ∧
        (dst a = .error cause ∨ (∃ i, dst a = .ok i) ∧
          (source s .b b = .error cause ∨
            ∃ addr, source s .b b = .ok addr ∧ s.memRead addr.toNat .dataRead = .error cause)) := by
  unfold execRmem
  rw [State.finish_eq_next_iff]
  cases dst a with
  | error e => simp [bind, Except.bind, eq_comm]
  | ok i =>
    cases source s .b b with
    | error e => simp [bind, Except.bind, eq_comm]
    | ok addr =>
      cases h : s.memRead addr.toNat .dataRead <;> simp [bind, Except.bind, pure, Except.pure, h, eq_comm]

theorem execWmem_eq_next_iff :
    execWmem a b s = .next t ↔
      (∃ addr v, source s .a a = .ok addr ∧ source s .b b = .ok v ∧
        (s.advance 3).memWrite addr.toNat (Val.word v) = .ok t) ∨
      ∃ cause, t = s.takeFault (some 16) cause ∧
        (source s .a a = .error cause ∨ ∃ addr, source s .a a = .ok addr ∧
          (source s .b b = .error cause ∨
            ∃ v, source s .b b = .ok v ∧ (s.advance 3).memWrite addr.toNat (Val.word v) = .error cause)) := by
  unfold execWmem
  rw [State.finish_eq_next_iff]
  cases source s .a a with
  | error e => simp [bind, Except.bind, eq_comm]
  | ok addr => cases source s .b b <;> simp [bind, Except.bind, and_comm, eq_comm]

theorem execCall_eq_next_iff :
    execCall a s = .next t ↔
      (∃ v u, source s .a a = .ok v ∧ (s.advance 2).push (s.advance 2).pc = .ok u ∧ t = u.jump (Val.word v)) ∨
      ∃ cause, t = s.takeFault (some 17) cause ∧
        (source s .a a = .error cause ∨
          (∃ v, source s .a a = .ok v) ∧ (s.advance 2).push (s.advance 2).pc = .error cause) := by
  unfold execCall
  rw [State.finish_eq_next_iff]
  cases source s .a a <;> cases (s.advance 2).push (s.advance 2).pc <;>
    simp [bind, Except.bind, pure, Except.pure, eq_comm]

theorem execRet_eq_next_iff :
    execRet s = .next t ↔
      (∃ w u, (s.advance 1).pop = some (w, u) ∧ t = u.jump w) ∨
      s.stack = [] ∧ t = (s.advance 1).halt .retEmptyStack := by
  unfold execRet
  rw [State.finish_eq_next_iff, ← State.advance_stack s 1, ← State.pop_eq_none_iff]
  rcases (s.advance 1).pop with _ | ⟨w, u⟩ <;> simp [eq_comm]

theorem execOut_eq_next_iff :
    execOut a s = .next t ↔
      (∃ v, source s .a a = .ok v ∧ t = (s.advance 2).emit (BitVec.ofNat 8 v.toNat)) ∨
      ∃ cause, t = s.takeFault (some 19) cause ∧ source s .a a = .error cause := by
  unfold execOut
  rw [State.finish_eq_next_iff]
  cases source s .a a <;> simp [bind, Except.bind, pure, Except.pure, eq_comm]

theorem execIn_eq_next_iff :
    execIn a s = .next t ↔
      (∃ i b u, dst a = .ok i ∧ (s.advance 2).nextInput = .byte b u ∧ t = u.writeReg i b.toNat) ∨
      (∃ i u, dst a = .ok i ∧ (s.advance 2).nextInput = .endOfStream u ∧ t = u.halt .inputExhausted) ∨
      (∃ i, dst a = .ok i ∧ (s.advance 2).nextInput = .waiting ∧ t = s) ∨
      ∃ cause, t = s.takeFault (some 20) cause ∧ dst a = .error cause := by
  unfold execIn
  rw [State.finish_eq_next_iff]
  cases dst a <;> cases (s.advance 2).nextInput <;> simp [bind, Except.bind, pure, Except.pure, eq_comm]

/-- Every instruction's execution has a next state: none is refused and none is stuck. -/
theorem exec_next (i : Instr) : ∃ t, exec i s = .next t := by
  cases i <;> first | exact State.finish_next _ _ _ | exact ⟨_, rfl⟩

end Sys2Proof.Machine
end

