-- ==== Sys2Proof/Laws/Load.lean ====
section
/-! SUPPORT. Everything the load can answer, and what reset leaves in each field. -/

namespace Sys2Proof.Machine

variable (s : State)

@[simp] theorem State.resetCore_regs : s.resetCore.regs = Regs.zero := rfl
@[simp] theorem State.resetCore_pc : s.resetCore.pc = 0 := rfl
@[simp] theorem State.resetCore_stack : s.resetCore.stack = [] := rfl
@[simp] theorem State.resetCore_mem : s.resetCore.mem = s.mem := rfl
@[simp] theorem State.resetCore_inbuf : s.resetCore.inbuf = [] := rfl
@[simp] theorem State.resetCore_status : s.resetCore.status = .running := rfl
@[simp] theorem State.resetCore_out : s.resetCore.out = [] := rfl
@[simp] theorem State.resetCore_params : s.resetCore.params = s.params := rfl
@[simp] theorem State.resetCore_answers : s.resetCore.answers = s.answers := rfl

theorem State.withImage_eq_ok_iff (image : List Word) (p : Config.Params) (t : State) :
    s.withImage image p = .ok t ↔
      image.length ≤ p.memSize ∧ p.memSize ≤ Config.maxMemSize ∧
        t = { s with mem := Memory.writeAll [] 0 image, params := p } := by
  unfold State.withImage
  split
  · simp only [reduceCtorEq, false_iff]; omega
  · split
    · simp only [reduceCtorEq, false_iff]; omega
    · rw [Except.ok.injEq, eq_comm]
      exact ⟨fun h => ⟨by omega, by omega, h⟩, fun h => h.2.2⟩

/-- A run started by `State.restart` is fresh: all but the image, the parameters and the host's answers is as at reset. -/
theorem State.restart_eq_some_ok_iff (image : List Word) (p : Config.Params) (t : State) :
    s.restart image p = some (.ok t) ↔ s.isRunning = false ∧ boot image p s.answers = .ok t := by
  unfold State.restart boot
  split <;> simp_all [State.withImage, State.resetCore, State.reset]

end Sys2Proof.Machine
end

