-- ==== Sys2Proof/Laws/PerInstr.lean ====
section
/-! SUPPORT. Statements made per instruction: the shape of its encoding (30_encoding.md R50, R53). -/

namespace Sys2Proof.Laws.EncodeShape

/-- One opcode word, whose arity is the number of operand words that follow, one to four words in all. -/
def Statement (i : Instr) : Prop :=
  encode i = i.opcode :: i.operands ∧ arityOf i.opcode = some i.operands.length ∧ (encode i).length ≤ Config.longestInstr

theorem hlt : Statement .hlt := ⟨rfl, rfl, by decide⟩
theorem set (a b : Word) : Statement (.set a b) := ⟨rfl, rfl, by simp [encode, Instr.operands, Config.longestInstr]⟩
theorem push (a : Word) : Statement (.push a) := ⟨rfl, rfl, by simp [encode, Instr.operands, Config.longestInstr]⟩
theorem pop (a : Word) : Statement (.pop a) := ⟨rfl, rfl, by simp [encode, Instr.operands, Config.longestInstr]⟩
theorem eq (a b c : Word) : Statement (.eq a b c) := ⟨rfl, rfl, by simp [encode, Instr.operands, Config.longestInstr]⟩
theorem gt (a b c : Word) : Statement (.gt a b c) := ⟨rfl, rfl, by simp [encode, Instr.operands, Config.longestInstr]⟩
theorem jmp (a : Word) : Statement (.jmp a) := ⟨rfl, rfl, by simp [encode, Instr.operands, Config.longestInstr]⟩
theorem jt (a b : Word) : Statement (.jt a b) := ⟨rfl, rfl, by simp [encode, Instr.operands, Config.longestInstr]⟩
theorem jf (a b : Word) : Statement (.jf a b) := ⟨rfl, rfl, by simp [encode, Instr.operands, Config.longestInstr]⟩
theorem add (a b c : Word) : Statement (.add a b c) := ⟨rfl, rfl, by simp [encode, Instr.operands, Config.longestInstr]⟩
theorem mul (a b c : Word) : Statement (.mul a b c) := ⟨rfl, rfl, by simp [encode, Instr.operands, Config.longestInstr]⟩
theorem mod (a b c : Word) : Statement (.mod a b c) := ⟨rfl, rfl, by simp [encode, Instr.operands, Config.longestInstr]⟩
theorem and (a b c : Word) : Statement (.and a b c) := ⟨rfl, rfl, by simp [encode, Instr.operands, Config.longestInstr]⟩
theorem or (a b c : Word) : Statement (.or a b c) := ⟨rfl, rfl, by simp [encode, Instr.operands, Config.longestInstr]⟩
theorem not (a b : Word) : Statement (.not a b) := ⟨rfl, rfl, by simp [encode, Instr.operands, Config.longestInstr]⟩
theorem rmem (a b : Word) : Statement (.rmem a b) := ⟨rfl, rfl, by simp [encode, Instr.operands, Config.longestInstr]⟩
theorem wmem (a b : Word) : Statement (.wmem a b) := ⟨rfl, rfl, by simp [encode, Instr.operands, Config.longestInstr]⟩
theorem call (a : Word) : Statement (.call a) := ⟨rfl, rfl, by simp [encode, Instr.operands, Config.longestInstr]⟩
theorem ret : Statement .ret := ⟨rfl, rfl, by decide⟩
theorem out (a : Word) : Statement (.out a) := ⟨rfl, rfl, by simp [encode, Instr.operands, Config.longestInstr]⟩
theorem inp (a : Word) : Statement (.inp a) := ⟨rfl, rfl, by simp [encode, Instr.operands, Config.longestInstr]⟩
theorem noop : Statement .noop := ⟨rfl, rfl, by decide⟩

end Sys2Proof.Laws.EncodeShape
end

