-- ==== Sys2Proof/Laws/Step.lean ====
section
/-! SUPPORT. Everything a step can do: one inversion lemma for `step` and for the decode phase. -/

namespace Sys2Proof.Machine

theorem State.fetchWord_eq_ok_iff (s : State) (k : Nat) (w : Word) :
    s.fetchWord k = .ok w ↔ s.pc.toNat + k < s.params.memSize ∧ w = Memory.read s.mem (s.pc.toNat + k) :=
  State.memRead_eq_ok_iff _ _ _ _

theorem State.fetchWord_eq_error_iff (s : State) (k : Nat) (e : FaultCause) :
    s.fetchWord k = .error e ↔ s.params.memSize ≤ s.pc.toNat + k ∧ e = .outOfBounds (s.pc.toNat + k) .fetch :=
  State.memRead_eq_error_iff _ _ _ _

/-- The decode phase succeeds exactly when the opcode word is in memory and the opcode map gives the instruction. -/
theorem State.decodePhase_eq_ok_iff (s : State) (i : Instr) :
    s.decodePhase = .ok i ↔
      ∃ op, s.fetchWord 0 = .ok op ∧ decodeOp op (.invalidOpcode op) s.fetchWord = .ok i := by
  unfold State.decodePhase
  cases s.fetchWord 0 with
  | error e => simp
  | ok op =>
    cases h : decodeOp op (.invalidOpcode op) s.fetchWord <;> simp [h]

/-- The decode phase ends in a fault taken in `s`, the record naming the opcode word when it was fetched. -/
theorem State.decodePhase_eq_error_iff (s t : State) :
    s.decodePhase = .error t ↔
      (∃ cause, s.fetchWord 0 = .error cause ∧ t = s.takeFault none cause) ∨
      ∃ op cause, s.fetchWord 0 = .ok op ∧ decodeOp op (.invalidOpcode op) s.fetchWord = .error cause ∧
        t = s.takeFault (some op) cause := by
  unfold State.decodePhase
  cases s.fetchWord 0 with
  | error e => simp [eq_comm]
  | ok op =>
    cases h : decodeOp op (.invalidOpcode op) s.fetchWord <;> simp [h, eq_comm]

/-- Everything a step that answers a next state can have done. -/
theorem step_eq_next_iff (s t : State) :
    step s = .next t ↔
      s.status = .running ∧ ((∃ i, s.decodePhase = .ok i ∧ exec i s = .next t) ∨ s.decodePhase = .error t) := by
  rw [← State.isRunning_iff]
  unfold step
  split
  · cases h : s.decodePhase <;> simp_all
  · simp_all

theorem step_of_not_running (s : State) (h : s.status ≠ .running) : step s = .fault .runEnded := by
  rw [ne_eq, ← State.isRunning_iff] at h
  simp [step, h]

theorem step_of_decodePhase_ok (s : State) (i : Instr) (hr : s.status = .running) (h : s.decodePhase = .ok i) :
    step s = exec i s := by
  rw [← State.isRunning_iff] at hr
  simp [step, hr, h]

theorem step_of_decodePhase_error (s t : State) (hr : s.status = .running) (h : s.decodePhase = .error t) :
    step s = .next t := by
  rw [← State.isRunning_iff] at hr
  simp [step, hr, h]

end Sys2Proof.Machine
end

