-- ==== Sys2Proof/Machine/Asm.lean ====
section
/-! DEFINITION. The assembly text of an instruction (30_encoding.md R60; log 18). No meaning rests on it. -/

namespace Sys2Proof.Machine

/-- The mnemonic, spelled as in the opcode map (30_encoding.md R53). -/
def mnemonic : Instr → String
  | .hlt => "Hlt"
  | .set .. => "Set"
  | .push .. => "Push"
  | .pop .. => "Pop"
  | .eq .. => "Eq"
  | .gt .. => "Gt"
  | .jmp .. => "Jmp"
  | .jt .. => "Jt"
  | .jf .. => "Jf"
  | .add .. => "Add"
  | .mul .. => "Mul"
  | .mod .. => "Mod"
  | .and .. => "And"
  | .or .. => "Or"
  | .not .. => "Not"
  | .rmem .. => "Rmem"
  | .wmem .. => "Wmem"
  | .call .. => "Call"
  | .ret => "Ret"
  | .out .. => "Out"
  | .inp .. => "In"
  | .noop => "Noop"

/-- An operand as assembly writes it: `rN` stands for the word `32768 + N`, a decimal number for the word itself. -/
inductive AsmOperand where
  | reg (n : RegIdx)
  | num (w : Word)
deriving DecidableEq, Repr

/-- The word an assembly operand stands for. -/
def AsmOperand.word : AsmOperand → Word
  | .reg n => BitVec.ofNat 16 (32768 + n.val)
  | .num w => w

/-- The spelling chosen for a word: `rN` for a register reference, else decimal (log 18). -/
def asmOperand (w : Word) : AsmOperand :=
  if h : 32768 ≤ w.toNat ∧ w.toNat - 32768 < 8 then .reg ⟨w.toNat - 32768, h.2⟩ else .num w

/-- The text of an assembly operand. -/
def AsmOperand.text : AsmOperand → String
  | .reg n => "r" ++ toString n.val
  | .num w => toString w.toNat

/-- One line of assembly: the mnemonic, then the operands between commas. -/
def asmLine (i : Instr) : String :=
  match i.operands with
  | [] => mnemonic i
  | ws => mnemonic i ++ " " ++ ", ".intercalate (ws.map fun w => (asmOperand w).text)

/-- The line that places a data word. -/
def asmData (w : Word) : String := ".word " ++ toString w.toNat

/-- A line with the word address of its first word in front. -/
def asmAt (addr : Nat) (line : String) : String := toString addr ++ ": " ++ line

/-- Assembling: the opcode value followed by the operand words (30_encoding.md R60). -/
def assemble (op : Word) (operands : List AsmOperand) : List Word := op :: operands.map AsmOperand.word

end Sys2Proof.Machine
end

