-- ==== Sys2Proof/Tests/Slice0.lean ====
section
/-! SUPPORT. The model's own tests. Every expected result is taken from spec/95_test_vectors.md (the section named in
each group), or written out from the encoding rules; then, for each statement with hypotheses, concrete states and
operands that meet them, at the ends of their ranges. -/

namespace Sys2Proof.Tests

open Sys2Proof.Machine Sys2Proof.Spec

/-- The next state of an outcome, if it has one. -/
def nextOf (o : Host.Outcome State Fault Refusal) : Option State :=
  match o with
  | .next s => some s
  | .fault _ => none
  | .refused _ => none

/-- The convention of spec/95_test_vectors.md: reset, the image loaded, `MEM_SIZE = len(image)`. -/
def start (image : List Word) : State :=
  { State.reset with mem := Memory.writeAll [] 0 image, params := ⟨image.length, none⟩ }

/-- One step of an image, with registers 0 and 1 preset. -/
def after (image : List Word) (x0 x1 : Val := 0) : Option State :=
  nextOf (step { start image with regs := { Regs.zero with x0 := x0, x1 := x1 } })

/-- What a faulted state's record says. -/
def recordOf (s : State) : Option FaultRecord :=
  match s.status with
  | .faulted r => some r
  | .running => none
  | .halted _ => none

/-! ### Decoding: words written out from 30_encoding.md R53, R55 (32768 + r is register r) -/

theorem test_decode_hlt : decode [0] = .ok (.hlt, []) := by rfl
theorem test_decode_set : decode [1, 32769, 5] = .ok (.set 32769 5, []) := by rfl
theorem test_decode_push : decode [2, 32768] = .ok (.push 32768, []) := by rfl
theorem test_decode_pop : decode [3, 32770] = .ok (.pop 32770, []) := by rfl
theorem test_decode_eq : decode [4, 32768, 32769, 4] = .ok (.eq 32768 32769 4, []) := by rfl
theorem test_decode_gt : decode [5, 32770, 5, 3] = .ok (.gt 32770 5 3, []) := by rfl
theorem test_decode_jmp : decode [6, 100] = .ok (.jmp 100, []) := by rfl
theorem test_decode_jt : decode [7, 32768, 20] = .ok (.jt 32768 20, []) := by rfl
theorem test_decode_jf : decode [8, 32768, 20] = .ok (.jf 32768 20, []) := by rfl
theorem test_decode_add : decode [9, 32768, 32769, 4, 19] = .ok (.add 32768 32769 4, [19]) := by rfl
theorem test_decode_mul : decode [10, 32768, 181, 182] = .ok (.mul 32768 181 182, []) := by rfl
theorem test_decode_mod : decode [11, 32768, 7, 3] = .ok (.mod 32768 7 3, []) := by rfl
theorem test_decode_and : decode [12, 32768, 12, 10] = .ok (.and 32768 12 10, []) := by rfl
theorem test_decode_or : decode [13, 32768, 12, 10] = .ok (.or 32768 12 10, []) := by rfl
theorem test_decode_not : decode [14, 32768, 21845] = .ok (.not 32768 21845, []) := by rfl
theorem test_decode_rmem : decode [15, 32769, 1] = .ok (.rmem 32769 1, []) := by rfl
theorem test_decode_wmem : decode [16, 4, 66] = .ok (.wmem 4 66, []) := by rfl
theorem test_decode_call : decode [17, 5] = .ok (.call 5, []) := by rfl
theorem test_decode_ret : decode [18] = .ok (.ret, []) := by rfl
theorem test_decode_out : decode [19, 65, 0] = .ok (.out 65, [0]) := by rfl
theorem test_decode_in : decode [20, 32771] = .ok (.inp 32771, []) := by rfl
theorem test_decode_noop : decode [21, 0] = .ok (.noop, [0]) := by rfl

/-- Section 2.1: 22, 256 and 32768 are not opcodes, and a short list is named. -/
theorem test_decode_rejects :
    decode [22] = .error (.unknownOpcode 22) ∧ decode [256] = .error (.unknownOpcode 256) ∧
    decode [32768] = .error (.unknownOpcode 32768) ∧ decode [9, 32768, 32768] = .error (.missingWord 3) ∧
    decode [] = .error (.missingWord 0) := by
  refine ⟨?_, ?_, ?_, ?_, ?_⟩ <;> rfl

/-- The numeral of `Add r0, r0, 1`: 0x0001_8000_8000_0009. -/
theorem test_decode_table_word :
    decodeTableWord 64 0x0001800080000009 = some (.add 32768 32768 1) ∧ decodeTableWord 16 21 = some .noop ∧
    decodeTableWord 16 1 = some (.set 0 0) ∧ decodeTableWord 16 22 = none := by decide

/-- 30_encoding.md R60: `Out 65`, `Add r0, r0, 1`. -/
theorem test_asm : asmLine (.out 65) = "Out 65" ∧ asmLine (.add 32768 32768 1) = "Add r0, r0, 1" ∧ asmLine .noop = "Noop" ∧
    assemble 1 [.reg 1, .num 5] = [1, 32769, 5] := by decide

/-! ### Well-formedness: each check refuses an ill-formed term (30_encoding.md R59; section 2.2) -/

theorem test_wf_set_dest : (Instr.set 8 5).wellFormed = false := by decide
theorem test_wf_set_source : (Instr.set 7 32776).wellFormed = false := by decide
theorem test_wf_push : (Instr.push 32776).wellFormed = false := by decide
theorem test_wf_pop : (Instr.pop 32767).wellFormed = false := by decide
theorem test_wf_eq : (Instr.eq 32776 0 0).wellFormed = false ∧ (Instr.eq 0 40000 0).wellFormed = false ∧
    (Instr.eq 0 0 65535).wellFormed = false := by decide
theorem test_wf_gt : (Instr.gt 8 0 0).wellFormed = false ∧ (Instr.gt 0 32776 0).wellFormed = false ∧
    (Instr.gt 0 0 32776).wellFormed = false := by decide
theorem test_wf_jmp : (Instr.jmp 40000).wellFormed = false := by decide
theorem test_wf_jt : (Instr.jt 32776 0).wellFormed = false ∧ (Instr.jt 0 32776).wellFormed = false := by decide
theorem test_wf_jf : (Instr.jf 32776 0).wellFormed = false ∧ (Instr.jf 0 32776).wellFormed = false := by decide
theorem test_wf_add : (Instr.add 8 0 0).wellFormed = false ∧ (Instr.add 0 32776 0).wellFormed = false ∧
    (Instr.add 0 0 32776).wellFormed = false := by decide
theorem test_wf_mul : (Instr.mul 8 0 0).wellFormed = false ∧ (Instr.mul 0 32776 0).wellFormed = false ∧
    (Instr.mul 0 0 32776).wellFormed = false := by decide
theorem test_wf_mod : (Instr.mod 8 0 0).wellFormed = false ∧ (Instr.mod 0 32776 0).wellFormed = false ∧
    (Instr.mod 0 0 32776).wellFormed = false := by decide
theorem test_wf_and : (Instr.and 8 0 0).wellFormed = false ∧ (Instr.and 0 32776 0).wellFormed = false ∧
    (Instr.and 0 0 32776).wellFormed = false := by decide
theorem test_wf_or : (Instr.or 8 0 0).wellFormed = false ∧ (Instr.or 0 32776 0).wellFormed = false ∧
    (Instr.or 0 0 32776).wellFormed = false := by decide
theorem test_wf_not : (Instr.not 8 0).wellFormed = false ∧ (Instr.not 0 32776).wellFormed = false := by decide
theorem test_wf_rmem : (Instr.rmem 8 0).wellFormed = false ∧ (Instr.rmem 0 32776).wellFormed = false := by decide
theorem test_wf_wmem : (Instr.wmem 32776 0).wellFormed = false ∧ (Instr.wmem 8 32776).wellFormed = false := by decide
theorem test_wf_call : (Instr.call 32776).wellFormed = false := by decide
theorem test_wf_out : (Instr.out 65535).wellFormed = false := by decide
theorem test_wf_in : (Instr.inp 8).wellFormed = false := by decide
theorem test_wf_accepts : (Instr.set 7 32775).wellFormed = true ∧ (Instr.set 32775 32767).wellFormed = true ∧
    (Instr.wmem 8 32767).wellFormed = true := by decide

/-! ### The decode phase (section 2.1) -/

theorem test_empty_memory_faults :
    ((after []).bind recordOf) = some ⟨.outOfBounds 0 .fetch, 0, none⟩ := by decide
theorem test_unknown_opcode_faults :
    (after [22]).map (fun t => (recordOf t, t.pc)) = some (some ⟨.invalidOpcode 22, 0, some 22⟩, 0) := by decide
theorem test_operand_past_memory_faults :
    (after [9, 32768, 32768]).map (fun t => (recordOf t, t.pc)) =
      some (some ⟨.outOfBounds 3 .fetch, 0, some 9⟩, 0) := by decide

/-! ### Set, Push, Pop (sections 2.2, 2.3) -/

theorem test_set_literal : (after [1, 32769, 5]).map (fun t => (t.regs.x1, t.pc)) = some (5, 3) := by decide
theorem test_set_literal_destination : (after [1, 3, 5, 0]).map (fun t => t.regs.x3) = some 5 := by decide
theorem test_push_resolved : (after [2, 32768] 7).map (fun t => (t.stack, t.pc)) = some ([7], 2) := by decide
theorem test_push_overflow :
    (nextOf (exec (.push 2) { State.reset with stack := [1], params := ⟨5, some 1⟩ })).map
      (fun t => (recordOf t, t.stack)) = some (some ⟨.stackOverflow, 0, some 2⟩, [1]) := by decide
theorem test_pop_top :
    (nextOf (exec (.pop 32770) { State.reset with stack := [9, 4] })).map (fun t => (t.regs.x2, t.stack)) =
      some (9, [4]) := by decide
theorem test_pop_reduces :
    (nextOf (exec (.pop 32768) { State.reset with stack := [32768] })).map (fun t => (t.regs.x0, t.stack)) =
      some (0, []) := by decide

/-! ### Eq, Gt (section 2.4) -/

theorem test_eq_resolved : (after [4, 32768, 32769, 4] 9 4).map (fun t => t.regs.x0) = some 1 := by decide
theorem test_eq_source_is_destination : (after [4, 32768, 32768, 4] 3).map (fun t => t.regs.x0) = some 0 := by decide
theorem test_gt_unsigned : (after [5, 32768, 32767, 0]).map (fun t => t.regs.x0) = some 1 := by decide
theorem test_gt_strict : (after [5, 32768, 5, 5] 9).map (fun t => t.regs.x0) = some 0 := by decide

/-! ### Jmp, Jt, Jf (section 2.5) -/

theorem test_jmp_absolute : (after [6, 100]).map (fun t => t.pc) = some 100 := by decide
theorem test_jmp_indirect : (after [6, 32768] 5).map (fun t => t.pc) = some 5 := by decide
theorem test_jt_not_taken_ignores_target : (after [7, 0, 40000, 0]).map (fun t => (t.pc, t.status)) =
    some (3, .running) := by decide
theorem test_jt_taken_resolves_target :
    (after [7, 1, 40000, 0]).bind recordOf = some ⟨.invalidOperand 40000 .b, 0, some 7⟩ := by decide
theorem test_jf_taken_resolves_target :
    (after [8, 0, 40000, 0]).bind recordOf = some ⟨.invalidOperand 40000 .b, 0, some 8⟩ := by decide
theorem test_jf_not_taken : (after [8, 1, 40000, 0]).map (fun t => (t.pc, t.status)) = some (3, .running) := by decide

/-! ### Add, Mul, Mod, And, Or, Not (section 2.6) -/

theorem test_add_wraps : (after [9, 32768, 32768, 1, 0] 32767).map (fun t => (t.regs.x0, t.pc)) = some (0, 4) := by
  decide
theorem test_add_same_source_twice : (after [9, 32768, 32768, 32768, 0] 20000).map (fun t => t.regs.x0) = some 7232 := by
  decide
theorem test_mul_low_bits : (after [10, 32768, 12345, 6789]).map (fun t => t.regs.x0) = some 22429 := by decide
theorem test_mul_largest : (after [10, 32768, 32767, 32767]).map (fun t => t.regs.x0) = some 1 := by decide
theorem test_mod_remainder : (after [11, 32768, 7, 3]).map (fun t => t.regs.x0) = some 1 := by decide
theorem test_mod_by_zero :
    (after [11, 32768, 5, 32769, 0] 9).map (fun t => (recordOf t, t.regs.x0)) =
      some (some ⟨.divisionByZero, 0, some 11⟩, 9) := by decide
theorem test_and : (after [12, 32768, 12, 10]).map (fun t => t.regs.x0) = some 8 := by decide
theorem test_or : (after [13, 32768, 12, 10]).map (fun t => t.regs.x0) = some 14 := by decide
theorem test_not : (after [14, 32768, 21845]).map (fun t => (t.regs.x0, t.pc)) = some (10922, 3) := by decide
theorem test_check_order :
    (after [11, 8, 40000, 0]).bind recordOf = some ⟨.invalidRegister 8, 0, some 11⟩ := by decide

/-! ### Rmem, Wmem (section 2.7) -/

theorem test_rmem_reduces : (after [15, 32768, 4, 0, 40000]).map (fun t => t.regs.x0) = some 7232 := by decide
theorem test_rmem_out_of_bounds :
    (after [15, 32768, 3]).bind recordOf = some ⟨.outOfBounds 3 .dataRead, 0, some 15⟩ := by decide
theorem test_wmem_register_is_address :
    (after [16, 32768, 5, 0] 3).map (fun t => (Memory.read t.mem 3, t.regs.x0, t.pc)) = some (5, 3, 3) := by decide
theorem test_wmem_out_of_bounds :
    (after [16, 3, 1]).map (fun t => (recordOf t, t.mem)) =
      some (some ⟨.outOfBounds 3 .dataWrite, 0, some 16⟩, [(0, 16), (1, 3), (2, 1)]) := by decide
/-- Storing 0 takes the cell out of the list: equal memories are equal lists. -/
theorem test_memory_canonical : Memory.write [(1, 7), (4, 9)] 4 0 = [(1, 7)] ∧
    Memory.write [(1, 7), (4, 9)] 2 3 = [(1, 7), (2, 3), (4, 9)] := by decide

/-! ### Call, Ret (section 2.8) -/

theorem test_call : (after [17, 5]).map (fun t => (t.pc, t.stack)) = some (5, [2]) := by decide
theorem test_call_pushes_unreduced :
    (nextOf (exec (.call 2) { State.reset with pc := 32766 })).map (fun t => (t.pc, t.stack)) =
      some (2, [32768]) := by decide
theorem test_ret_unreduced :
    (nextOf (exec .ret { State.reset with stack := [32768, 1] })).map (fun t => (t.pc, t.stack)) =
      some (32768, [1]) := by decide
theorem test_ret_empty_halts : (after [18]).map (fun t => (t.status, t.pc)) = some (.halted .retEmptyStack, 1) := by
  decide

/-! ### Out, In (section 2.9) -/

theorem test_out_low_byte : (after [19, 321, 0]).map (fun t => (t.out, t.pc)) = some ([65], 2) := by decide
theorem test_out_appends :
    (nextOf (exec (.out 32768) { State.reset with out := [1, 2], regs := { Regs.zero with x0 := 32767 } })).map
      (fun t => t.out) = some [1, 2, 255] := by decide
theorem test_in_refills :
    (nextOf (step { start [20, 32768, 0] with answers := [[104, 105, 10], []] })).map
      (fun t => (t.regs.x0, t.inbuf, t.answers, t.pc)) = some (104, [105, 10], [[]], 2) := by decide
theorem test_in_end_of_stream :
    (nextOf (step { start [20, 32768] with answers := [[]] })).map (fun t => (t.status, t.regs.x0, t.pc)) =
      some (.halted .inputExhausted, 0, 2) := by decide
theorem test_in_bad_destination_asks_nothing :
    (nextOf (step { start [20, 8] with answers := [[1]] })).map (fun t => (recordOf t, t.answers)) =
      some (some ⟨.invalidRegister 8, 0, some 20⟩, [[1]]) := by decide
theorem test_in_waits : step (start [20, 32768]) = .next (start [20, 32768]) := by rfl

/-! ### Hlt, Noop, and the end of a run (section 2.10) -/

theorem test_hlt : (after [0]).map (fun t => (t.status, t.pc)) = some (.halted .hltInstruction, 1) := by decide
theorem test_noop : (after [21]).map (fun t => (t.status, t.pc)) = some (.running, 1) := by decide
theorem test_no_step_after_halt :
    step { State.reset with status := .halted .hltInstruction } = .fault .runEnded := by rfl

/-! ### Load (70_reset_and_hazards.md R183: `13 00 41 00 00 00` is `[19, 65, 0]`) -/

theorem test_image_bytes : imageOfBytes [0x13, 0x00, 0x41, 0x00, 0x00, 0x00] = .ok [19, 65, 0] := by rfl
theorem test_image_odd : imageOfBytes [0x13] = .error .oddByteLength := by rfl
theorem test_with_fetch_word :
    (nextOf (step (State.reset.withFetchWord 48 0x000580010001))).map (fun t => t.regs.x1) = some 5 := by decide

/-! ### Witnesses: the hypotheses of the statements are met, clause by clause -/

/-- A running machine with 8 words of memory, registers at their ends, and one word on the stack. -/
def small : State :=
  { start [16, 32775, 32767, 0, 40000, 0, 0, 0] with
    regs := { Regs.zero with x0 := 32767, x1 := 1, x7 := 7 }, stack := [32768] }

/-- A running machine that stands at `In r7` and has `answers` to come. -/
def atIn (answers : List (List Byte)) : State := { start [20, 32775] with answers := answers }

theorem witness_operand_forms :
    ReadsAs small 0 0 ∧ ReadsAs small 32767 32767 ∧ ReadsAs small 32768 32767 ∧ ReadsAs small 32775 7 ∧
    InvalidSource 32776 ∧ InvalidSource 65535 ∧ NamesReg 0 0 ∧ NamesReg 7 7 ∧ NamesReg 32768 0 ∧ NamesReg 32775 7 ∧
    NamesNone 8 ∧ NamesNone 32767 ∧ NamesNone 32776 ∧ NamesNone 65535 := by decide

theorem witness_UnknownOpcodeRaisesInvalidOpcode :
    22 ≤ (22 : Word).toNat ∧ 22 ≤ (65535 : Word).toNat ∧ (start [22]).status = .running ∧
    (start [22]).pc.toNat < (start [22]).params.memSize ∧
    22 ≤ (Memory.read (start [22]).mem (start [22]).pc.toNat).toNat := by decide

theorem witness_EncodeOfDecodedGivesWordsBack : decode [1, 65535, 0, 7] = .ok (.set 65535 0, [7]) := by rfl

theorem witness_ProgramWordsDetermineInstructions :
    [Instr.noop, .set 0 1].flatMap encode = [Instr.noop, .set 0 1].flatMap encode ∧
    [Instr.noop].flatMap encode ≠ [Instr.hlt].flatMap encode := by decide

theorem witness_StepRunsInstructionAtPc :
    small.status = .running ∧ small.pc.toNat + (encode (.wmem 32775 32767)).length ≤ small.params.memSize ∧
    wordsAtPc small (encode (.wmem 32775 32767)).length = encode (.wmem 32775 32767) := by decide

/-- Out of memory at the opcode, an unknown opcode, an operand out of memory, and all in memory, each at its bound. -/
theorem witness_DecodePhaseFetchesAndFaultsInOrder :
    (start []).params.memSize ≤ (start []).pc.toNat ∧
    (Memory.read (start [22]).mem 0 = 22 ∧ 21 < (22 : Word).toNat) ∧
    (arityOf 9 = some 3 ∧ Memory.read (start [9, 0, 0]).mem 0 = 9 ∧ (start [9, 0, 0]).params.memSize ≤ 0 + 3) ∧
    (Memory.read (start [9, 0, 0, 0]).mem 0 = 9 ∧ 0 + 3 < (start [9, 0, 0, 0]).params.memSize) := by decide

theorem witness_StepIsTakenExactlyWhileRunning :
    small.status = .running ∧ ({ small with status := .halted .hltInstruction } : State).status ≠ .running := by decide

theorem witness_FaultingStepWritesNothing :
    ∃ (t : State) (r : FaultRecord), step (start [3, 32768]) = .next t ∧ t.status = .faulted r :=
  ⟨_, _, rfl, rfl⟩

theorem witness_GracefulHaltHasThreeCauses :
    (∃ t, step (start [0]) = .next t ∧ t.status = .halted .hltInstruction) ∧
    (∃ t, step (start [18]) = .next t ∧ t.status = .halted .retEmptyStack) ∧
    ∃ t, step (atIn [[]]) = .next t ∧ t.status = .halted .inputExhausted :=
  ⟨⟨_, rfl, rfl⟩, ⟨_, rfl, rfl⟩, ⟨_, rfl, rfl⟩⟩

theorem witness_RegisterChangesOnlyAsDestination :
    (∃ t, exec (.set 7 5) small = .next t) ∧ ∀ a, destOf (.set 7 5) = some a → ¬ NamesReg a 6 :=
  ⟨⟨_, rfl⟩, by rintro _ ⟨⟩; decide⟩

theorem witness_MemoryChangesOnlyAtWmemAddress :
    Memory.wf small.mem ∧ ∃ t, exec (.wmem 7 32767) small = .next t ∧ Memory.read t.mem 7 ≠ Memory.read small.mem 7 :=
  ⟨by decide, _, rfl, by decide⟩

theorem witness_StackChannelsAndParamsFrame :
    (∃ t, exec (.push 1) small = .next t ∧ t.stack ≠ small.stack) ∧
    (∃ t, exec (.inp 7) (atIn [[1]]) = .next t ∧ t.answers ≠ (atIn [[1]]).answers) ∧
    ∃ t, exec (.out 65) small = .next t ∧ t.out ≠ small.out :=
  ⟨⟨_, rfl, by decide⟩, ⟨_, rfl, by decide⟩, ⟨_, rfl, by decide⟩⟩

/-- The largest memory, pc and a stack element at 32768, and a stack that is full. -/
def edge : State :=
  { State.reset with pc := 32768, stack := [32768], mem := [(32767, 65535)], params := ⟨32768, some 1⟩ }

theorem edge_pc : edge.pc.toNat = 32768 := rfl
theorem witness_edge_mem : Memory.wf edge.mem ∧ ∀ c ∈ edge.mem, c.1 < edge.params.memSize := by
  simp [edge, Memory.wf]
theorem witness_edge_stack : ∀ w ∈ edge.stack, w.toNat ≤ 32768 := by
  simp [edge]

theorem witness_StepKeepsReachableInvariant : edge.Inv ∧ ∃ t, step edge = .next t :=
  ⟨⟨le_refl _, witness_edge_mem.1, witness_edge_mem.2, le_of_eq edge_pc, witness_edge_stack, le_refl 1, trivial⟩, _, rfl⟩

theorem witness_FaultKindsRaisedByInstructions :
    ∃ (t : State) (r : FaultRecord), small.status = .running ∧ exec (.mod 0 5 0) small = .next t ∧
      t.status = .faulted r :=
  ⟨_, _, rfl, rfl, rfl⟩

theorem witness_LegalOperandsNeverRaiseOperandFaults :
    (Instr.mod 7 32775 0).wellFormed = true ∧ ∃ (t : State) (r : FaultRecord),
      exec (.mod 7 32775 0) small = .next t ∧ t.status = .faulted r :=
  ⟨by decide, _, _, rfl, rfl⟩

/-- Room on an unbounded stack, room for one more, and no room. -/
theorem witness_stack_room :
    StackHasRoom small ∧ StackHasRoom { small with params := ⟨8, some 2⟩ } ∧
    ¬ StackHasRoom { small with params := ⟨8, some 1⟩ } ∧ ¬ StackHasRoom { State.reset with params := ⟨8, some 0⟩ } := by
  decide

theorem witness_PopWritesTopModulo32768 : small.stack = 32768 :: [] ∧ State.reset.stack = [] := by decide

theorem witness_ConditionalJumps :
    ReadsAs small 1 1 ∧ (1 : Nat) ≠ 0 ∧ ReadsAs small 32770 0 ∧ ReadsAs small 32768 32767 := by decide

theorem witness_JumpOutOfMemoryFaultsAtNextStep :
    small.status = .running ∧ ReadsAs small 8 8 ∧ small.params.memSize ≤ 8 := by decide

theorem witness_ModWritesRemainderOrDividesByZero :
    ReadsAs small 32769 1 ∧ (1 : Nat) ≠ 0 ∧ ReadsAs small 0 0 ∧ ReadsAs small 32770 0 := by decide

theorem witness_NotTwice : NamesReg 7 7 ∧ ReadsAs small 32767 32767 ∧ (32775 : Word).toNat = 32768 + (7 : RegIdx).val := by
  decide

/-- The last address inside memory and the first outside. -/
theorem witness_RmemAndWmemAddresses :
    Memory.wf small.mem ∧ ReadsAs small 7 7 ∧ 7 < small.params.memSize ∧ ReadsAs small 8 8 ∧
    small.params.memSize ≤ 8 ∧ ReadsAs small 0 0 ∧ ReadsAs small 32767 32767 := by decide

/-- The state right after `Wmem 7, 32767` is a state `u` of both statements. -/
theorem witness_RmemReadsBackAndLaterFetch :
    ∃ t, exec (.wmem 7 32767) small = .next t ∧ Memory.read t.mem 7 = Memory.read t.mem 7 ∧ t.params = small.params ∧
      ReadsAs t 32775 7 ∧ t.pc.toNat + 4 = 7 :=
  ⟨_, rfl, rfl, rfl, by decide, by decide⟩

theorem witness_StoreOverOwnWordsCompletes :
    (start [16, 2, 7]).status = .running ∧ Memory.wf (start [16, 2, 7]).mem ∧
    (start [16, 2, 7]).pc.toNat + 3 ≤ (start [16, 2, 7]).params.memSize ∧
    wordsAtPc (start [16, 2, 7]) 3 = [16, 2, 7] ∧ ReadsAs (start [16, 2, 7]) 2 ((start [16, 2, 7]).pc.toNat + 2) ∧
    ReadsAs (start [16, 2, 7]) 7 7 := by decide

theorem witness_RetAfterCall :
    ∃ t, exec (.call 5) small = .next t ∧ ReadsAs small 5 5 ∧ StackHasRoom small ∧ t.stack = [2, 32768] :=
  ⟨_, rfl, by decide, by decide, by decide⟩

theorem witness_InDeliversNextInputByte :
    ({ atIn [] with inbuf := [255] } : State).inbuf = 255 :: [] ∧
    ((atIn [[0, 10]]).inbuf = [] ∧ (atIn [[0, 10]]).answers = (0 :: [10]) :: []) ∧
    ((atIn [[], [1]]).inbuf = [] ∧ (atIn [[], [1]]).answers = [] :: [[1]]) ∧
    ((atIn []).inbuf = [] ∧ (atIn []).answers = []) := by decide

theorem witness_InputDeliveredInOrder : ∃ t, step (atIn [[1, 2]]) = .next t ∧ inputStream t = [2] := ⟨_, rfl, by decide⟩

theorem witness_WaitEndsOnlyByAnswer : (atIn []).waitingForLine = true ∧ (atIn [[1]]).waitingForLine = false := by decide

theorem witness_HltAndNoopAtPc :
    (start [0]).status = .running ∧ (start [0]).pc.toNat < (start [0]).params.memSize ∧
    Memory.read (start [0]).mem (start [0]).pc.toNat = 0 ∧
    (start [21]).pc.toNat < (start [21]).params.memSize ∧ Memory.read (start [21]).mem (start [21]).pc.toNat = 21 := by
  decide

/-- An empty image in no memory, and one word in the largest memory. -/
theorem witness_Boot :
    ([] : List Word).length ≤ 0 ∧ 0 ≤ 32768 ∧ [(0 : Word)].length ≤ 32768 ∧
    ∃ s, boot [] ⟨0, none⟩ [] = .ok s := ⟨by decide, by decide, by decide, _, rfl⟩

theorem witness_LoadRefuses :
    32768 < (List.replicate 32769 (0 : Word)).length ∧ ([] : List Word).length ≤ 32768 ∧
    (0 < [(0 : Word)].length ∨ 32768 < 0) ∧ (32769 < ([] : List Word).length ∨ 32768 < 32769) := by
  refine ⟨by rw [List.length_replicate]; decide, by decide, by decide, by decide⟩

theorem witness_ImageBytesAreLittleEndianPairs : [(1 : Byte)].length % 2 = 1 ∧ ([] : List Byte).length % 2 = 0 ∧
    [(1 : Byte), 255].length % 2 = 0 := by decide

/-- A running state; an ended one with one word loaded into the largest memory; and an empty image in no memory. -/
theorem witness_RestartOnlyFromEndedRun :
    State.reset.status = .running ∧
    ({ State.reset with status := .faulted ⟨.divisionByZero, 0, some 11⟩ } : State).status ≠ .running ∧
    [(21 : Word)].length ≤ 32768 ∧ 32768 ≤ 32768 ∧ ([] : List Word).length ≤ 0 := by decide

/-- A new run does not see the last run's memory (10_state.md R26). -/
theorem test_restart_clears_last_memory :
    ∃ t, State.restart { small with mem := [(1, 7)], status := .halted .hltInstruction } [21] ⟨2, none⟩ = some (.ok t) ∧
      Memory.read t.mem 0 = 21 ∧ Memory.read t.mem 1 = 0 := ⟨_, rfl, by decide, by decide⟩

theorem witness_RunningMachineTakesOnlyLineAnswers :
    small.status = .running ∧ small.waitingForLine = false ∧ (atIn []).status = .running ∧
    (atIn []).waitingForLine = true := by decide

theorem witness_LoadAfterRunStartsAfresh :
    ({ small with status := .halted .retEmptyStack } : State).status ≠ .running ∧
    ∃ t, State.load { small with status := .halted .retEmptyStack } [21] ⟨1, none⟩ = .ok t := ⟨by decide, _, rfl⟩

/-- A load in the middle of a run is refused (70_reset_and_hazards.md R186). -/
theorem test_load_refused_while_running : small.load [0] ⟨1, none⟩ = .error .runInProgress := by decide

theorem witness_FetchWordStepRunsDecodedTableWord :
    Memory.wf small.mem ∧ decodeTableWord 16 20 = some (.inp 0) := by decide

end Sys2Proof.Tests
end

/-! ## The invariant of the reachable states

Each state operation keeps `State.Inv` (10_state.md R15, R16, 00_scope.md R6, 40_step_and_operands.md R79), so each
instruction does, and so do a step and a load. pc may be moved only in a state that is not faulted, since a fault record
names the pc of its state. -/

namespace Sys2Proof.Machine

/-! ### What the conditions of the invariant say -/

theorem State.recordOk_of_running {s : State} (hr : s.status = .running) : s.RecordOk := by
  simp [State.RecordOk, hr]

theorem State.stackFits_iff (s : State) :
    s.StackFits ↔ ∀ d, s.params.stackDepth = some d → s.stack.length ≤ d := by
  unfold State.StackFits
  cases s.params.stackDepth <;> simp

theorem Val.word_le (v : Val) : (Val.word v).toNat ≤ 32768 := by
  rw [Val.word_toNat]
  exact (Val.toNat_le v).trans (by decide)

theorem State.push_status {s t : State} {w : Word} (h : s.push w = .ok t) : t.status = s.status := by
  obtain ⟨-, rfl⟩ := (State.push_eq_ok_iff s t w).1 h
  rfl

theorem State.pop_status {s t : State} {w : Word} (h : s.pop = some (w, t)) : t.status = s.status := by
  obtain ⟨_, -, rfl⟩ := (State.pop_eq_some_iff s t w).1 h
  rfl

/-! ### The state operations keep the invariant -/

section Operations

variable {s t : State}

theorem State.Inv.writeReg (h : s.Inv) (i : RegIdx) (n : Nat) : (s.writeReg i n).Inv := { h with }

theorem State.Inv.emit (h : s.Inv) (b : Byte) : (s.emit b).Inv := { h with }

theorem State.Inv.halt (h : s.Inv) (reason : HaltReason) : (s.halt reason).Inv :=
  { h with record_ok := trivial }

theorem State.Inv.takeFault (h : s.Inv) (op : Option Word) (cause : FaultCause)
    (hop : op = none → cause = .outOfBounds s.pc.toNat .fetch) : (s.takeFault op cause).Inv :=
  { h with record_ok := ⟨rfl, hop⟩ }

theorem State.Inv.jump (h : s.Inv) (hr : s.status = .running) {w : Word} (hw : w.toNat ≤ 32768) :
    (s.jump w).Inv :=
  { h with pc_le := hw, record_ok := State.recordOk_of_running hr }

theorem State.Inv.advance (h : s.Inv) (hr : s.status = .running) {n : Nat} (hn : s.pc.toNat + n ≤ 32768) :
    (s.advance n).Inv :=
  { h with
    pc_le := by
      rw [State.advance_pc, BitVec.toNat_add, BitVec.toNat_ofNat]
      omega
    record_ok := State.recordOk_of_running hr }

theorem State.Inv.push (h : s.Inv) {w : Word} (hw : w.toNat ≤ 32768) (ht : s.push w = .ok t) : t.Inv := by
  obtain ⟨hroom, rfl⟩ := (State.push_eq_ok_iff s t w).1 ht
  refine { h with stack_le := List.forall_mem_cons.2 ⟨hw, h.stack_le⟩, stack_fits := ?_ }
  refine (State.stackFits_iff _).2 fun d hd => ?_
  have hle : s.stack.length ≤ d := (State.stackFits_iff s).1 h.stack_fits d hd
  have hne : d ≠ s.stack.length := fun e => hroom (e ▸ hd)
  rw [List.length_cons]
  omega

theorem State.Inv.pop (h : s.Inv) {w : Word} (ht : s.pop = some (w, t)) : w.toNat ≤ 32768 ∧ t.Inv := by
  obtain ⟨rest, hs, rfl⟩ := (State.pop_eq_some_iff s t w).1 ht
  have hle := h.stack_le
  rw [hs, List.forall_mem_cons] at hle
  refine ⟨hle.1, { h with stack_le := hle.2, stack_fits := ?_ }⟩
  refine (State.stackFits_iff _).2 fun d hd => ?_
  have hfits := (State.stackFits_iff s).1 h.stack_fits d hd
  rw [hs, List.length_cons] at hfits
  exact Nat.le_of_succ_le hfits

theorem State.Inv.memWrite (h : s.Inv) {addr : Nat} {v : Word} (ht : s.memWrite addr v = .ok t) : t.Inv := by
  obtain ⟨haddr, rfl⟩ := (State.memWrite_eq_ok_iff s t addr v).1 ht
  refine { h with mem_wf := Memory.wf_write _ _ _ h.mem_wf, mem_below := fun c hc => ?_ }
  rcases Memory.mem_write _ _ _ _ hc with ⟨rfl, -⟩ | hc
  · exact haddr
  · exact h.mem_below c hc

theorem State.Inv.nextInput_byte (h : s.Inv) {b : Byte} (ht : s.nextInput = .byte b t) : t.Inv := by
  rcases (State.nextInput_eq_byte_iff s t b).1 ht with ⟨_, -, rfl⟩ | ⟨_, _, -, -, rfl⟩
  · exact { h with }
  · exact { h with }

theorem State.Inv.nextInput_endOfStream (h : s.Inv) (ht : s.nextInput = .endOfStream t) : t.Inv := by
  obtain ⟨_, -, -, rfl⟩ := (State.nextInput_eq_endOfStream_iff s t).1 ht
  exact { h with }

end Operations

/-! ### The execution of an instruction keeps the invariant -/

section Execution

variable {s t : State}

/-- A fault of the execute phase names the opcode word it fetched. -/
theorem State.Inv.takeFault_some (h : s.Inv) (op : Word) (cause : FaultCause) :
    (s.takeFault (some op) cause).Inv := h.takeFault _ _ nofun

theorem binary_keeps_inv {op a b c : Word} {f : Val → Val → Nat} (hs : s.Inv) (ha : (s.advance 4).Inv)
    (h : binary op f a b c s = .next t) : t.Inv := by
  rcases (binary_eq_next_iff op f a b c s t).1 h with ⟨_, _, _, -, -, -, rfl⟩ | ⟨_, rfl, -⟩
  · exact ha.writeReg _ _
  · exact hs.takeFault_some _ _

theorem jumpIf_keeps_inv {op a b : Word} {taken : Bool} (hs : s.Inv) (hr : s.status = .running)
    (ha : (s.advance 3).Inv) (h : jumpIf op taken a b s = .next t) : t.Inv := by
  rcases (jumpIf_eq_next_iff op taken a b s t).1 h with ⟨_, target, -, -, -, rfl⟩ | ⟨_, -, -, rfl⟩ | ⟨_, rfl, -⟩
  · exact ha.jump hr (Val.word_le target)
  · exact ha
  · exact hs.takeFault_some _ _

theorem execPop_keeps_inv {a : Word} (hs : s.Inv) (ha : (s.advance 2).Inv) (h : execPop a s = .next t) :
    t.Inv := by
  rcases (execPop_eq_next_iff a s t).1 h with ⟨_, _, u, -, hp, rfl⟩ | ⟨_, rfl, -⟩
  · exact (ha.pop hp).2.writeReg _ _
  · exact hs.takeFault_some _ _

/-- The pushed return address is the advanced pc, which the invariant bounds (46_call_ret.md R125). -/
theorem execCall_keeps_inv {a : Word} (hs : s.Inv) (hr : s.status = .running) (ha : (s.advance 2).Inv)
    (h : execCall a s = .next t) : t.Inv := by
  rcases (execCall_eq_next_iff a s t).1 h with ⟨v, u, -, hp, rfl⟩ | ⟨_, rfl, -⟩
  · exact (ha.push ha.pc_le hp).jump ((State.push_status hp).trans hr) (Val.word_le v)
  · exact hs.takeFault_some _ _

/-- The target is a word of the stack, which the invariant bounds (46_call_ret.md R126). -/
theorem execRet_keeps_inv (hr : s.status = .running) (ha : (s.advance 1).Inv) (h : execRet s = .next t) :
    t.Inv := by
  rcases (execRet_eq_next_iff s t).1 h with ⟨w, u, hp, rfl⟩ | ⟨-, rfl⟩
  · obtain ⟨hw, hu⟩ := ha.pop hp
    exact hu.jump ((State.pop_status hp).trans hr) hw
  · exact ha.halt _

theorem execIn_keeps_inv {a : Word} (hs : s.Inv) (ha : (s.advance 2).Inv) (h : execIn a s = .next t) :
    t.Inv := by
  rcases (execIn_eq_next_iff a s t).1 h with
    ⟨_, _, u, -, hu, rfl⟩ | ⟨_, u, -, hu, rfl⟩ | ⟨_, -, -, rfl⟩ | ⟨_, rfl, -⟩
  · exact (ha.nextInput_byte hu).writeReg _ _
  · exact (ha.nextInput_endOfStream hu).halt _
  · exact hs
  · exact hs.takeFault_some _ _

/-- An instruction whose words are all in memory keeps the invariant of a running state: pc can be advanced past it. -/
theorem exec_keeps_inv (i : Instr) (hs : s.Inv) (hr : s.status = .running)
    (hin : s.pc.toNat + i.operands.length < s.params.memSize) (h : exec i s = .next t) : t.Inv := by
  have hle := hs.memSize_le
  have ha : (s.advance (1 + i.operands.length)).Inv := hs.advance hr (by omega)
  cases i with
  | hlt => cases h; exact ha.halt _
  | noop => cases h; exact ha
  | eq | gt | add | mul | and | or => exact binary_keeps_inv hs ha h
  | jt | jf => exact jumpIf_keeps_inv hs hr ha h
  | pop => exact execPop_keeps_inv hs ha h
  | call => exact execCall_keeps_inv hs hr ha h
  | ret => exact execRet_keeps_inv hr ha h
  | inp => exact execIn_keeps_inv hs ha h
  | set a b =>
    rcases (execSet_eq_next_iff a b s t).1 h with ⟨_, _, -, -, rfl⟩ | ⟨_, rfl, -⟩
    · exact ha.writeReg _ _
    · exact hs.takeFault_some _ _
  | mod a b c =>
    rcases (execMod_eq_next_iff a b c s t).1 h with ⟨_, _, _, -, -, -, -, rfl⟩ | ⟨_, rfl, -⟩
    · exact ha.writeReg _ _
    · exact hs.takeFault_some _ _
  | not a b =>
    rcases (execNot_eq_next_iff a b s t).1 h with ⟨_, _, -, -, rfl⟩ | ⟨_, rfl, -⟩
    · exact ha.writeReg _ _
    · exact hs.takeFault_some _ _
  | rmem a b =>
    rcases (execRmem_eq_next_iff a b s t).1 h with ⟨_, _, _, -, -, -, rfl⟩ | ⟨_, rfl, -⟩
    · exact ha.writeReg _ _
    · exact hs.takeFault_some _ _
  | wmem a b =>
    rcases (execWmem_eq_next_iff a b s t).1 h with ⟨_, _, -, -, hw⟩ | ⟨_, rfl, -⟩
    · exact ha.memWrite hw
    · exact hs.takeFault_some _ _
  | push a =>
    rcases (execPush_eq_next_iff a s t).1 h with ⟨v, -, hp⟩ | ⟨_, rfl, -⟩
    · exact ha.push (Val.word_le v) hp
    · exact hs.takeFault_some _ _
  | jmp a =>
    rcases (execJmp_eq_next_iff a s t).1 h with ⟨v, -, rfl⟩ | ⟨_, rfl, -⟩
    · exact ha.jump hr (Val.word_le v)
    · exact hs.takeFault_some _ _
  | out a =>
    rcases (execOut_eq_next_iff a s t).1 h with ⟨_, -, rfl⟩ | ⟨_, rfl, -⟩
    · exact ha.emit _
    · exact hs.takeFault_some _ _

end Execution

/-! ### A step keeps the invariant -/

/-- The decode phase answers an instruction only when its last word is in memory (40_step_and_operands.md R71). -/
theorem State.decodePhase_ok_words_in_memory {s : State} {i : Instr} (h : s.decodePhase = .ok i) :
    s.pc.toNat + i.operands.length < s.params.memSize := by
  obtain ⟨op, hop, hdec⟩ := (State.decodePhase_eq_ok_iff s i).1 h
  obtain ⟨-, hoperand⟩ := (decodeOp_eq_ok_iff _ _ _ _).1 hdec
  cases hlen : i.operands.length with
  | zero => exact ((State.fetchWord_eq_ok_iff s 0 op).1 hop).1
  | succ k => exact ((State.fetchWord_eq_ok_iff _ _ _).1 (hoperand k (by omega))).1

/-- A fault of the decode phase keeps the invariant: without an opcode word it is the opcode fetch that was out of
bounds (60_exceptions.md R150). -/
theorem State.decodePhase_error_keeps_inv {s t : State} (hs : s.Inv) (h : s.decodePhase = .error t) : t.Inv := by
  rcases (State.decodePhase_eq_error_iff s t).1 h with ⟨cause, hfetch, rfl⟩ | ⟨op, cause, -, -, rfl⟩
  · exact hs.takeFault none cause fun _ => ((State.fetchWord_eq_error_iff s 0 cause).1 hfetch).2
  · exact hs.takeFault_some op cause

/-- Settles O14: the words of a decoded instruction are in memory, so its execution keeps the invariant; a fault of the
decode phase keeps it too. -/
theorem stepKeepsReachableInvariant : Obligations.StepKeepsReachableInvariant := by
  intro s t hs hstep
  obtain ⟨hr, ⟨i, hdec, hexec⟩ | hfault⟩ := (step_eq_next_iff s t).1 hstep
  · exact exec_keeps_inv i hs hr (State.decodePhase_ok_words_in_memory hdec) hexec
  · exact State.decodePhase_error_keeps_inv hs hfault

/-! ### A load gives the invariant -/

theorem State.inv_reset : State.reset.Inv where
  memSize_le := le_refl _
  mem_wf := Memory.wf_nil
  mem_below := nofun
  pc_le := by decide
  stack_le := nofun
  stack_fits := trivial
  record_ok := trivial

/-- The image is no longer than `MEM_SIZE`, so it lists no cell outside the memory; the new `STACK_DEPTH` is met by the
empty stack alone. -/
theorem State.Inv.withImage {s t : State} {image : List Word} {p : Config.Params} (h : s.Inv) (hstack : s.stack = [])
    (ht : s.withImage image p = .ok t) : t.Inv := by
  obtain ⟨himage, hsize, rfl⟩ := (State.withImage_eq_ok_iff s image p t).1 ht
  refine { h with
    memSize_le := hsize
    mem_wf := Memory.wf_writeAll _ _ _ Memory.wf_nil
    mem_below := fun c hc => ?_
    stack_fits := (State.stackFits_iff _).2 fun d _ => by simp [hstack] }
  rcases Memory.mem_writeAll _ _ _ c hc with hc | ⟨-, hlt⟩
  · exact nomatch hc
  · exact hlt.trans_le ((Nat.zero_add _).trans_le himage)

/-- Settles O47: the first state is the reset state, which meets the invariant, with an image loaded. -/
theorem bootMeetsReachableInvariant : Obligations.BootMeetsReachableInvariant := by
  intro image p answers s hboot
  have hreset : ({ State.reset with answers := answers } : State).Inv := { State.inv_reset with }
  refine ⟨hreset.withImage rfl hboot, ?_⟩
  obtain ⟨-, -, rfl⟩ := (State.withImage_eq_ok_iff _ image p s).1 hboot
  exact ⟨rfl, rfl⟩

end Sys2Proof.Machine

/-! ## What an instruction leaves alone, and the first state of a run

The frame of an execution is proved once for all fields but pc and status (`exec_frame`); the statements on registers,
stack, channels and parameters (10_state.md R12, R15, R23, R24) are read off from it. Every run's first state is the
reset state with its image loaded (10_state.md R25, R26), whether it comes from `boot` or from a restart. -/

namespace Sys2Proof.Machine

open Sys2Proof.Spec

/-! ### The frame of an execution -/

/-- The four instructions that use the stack (10_state.md R15). -/
def UsesStack (i : Instr) : Prop := (∃ a, i = .push a) ∨ (∃ a, i = .pop a) ∨ (∃ a, i = .call a) ∨ i = .ret

/-- `t` differs from `s` only in pc, in status and in what the instruction `i` may change. -/
structure ExecFrame (i : Instr) (s t : State) : Prop where
  /-- 10_state.md R12. -/
  regs : t.regs = s.regs ∨ ∃ a r v, destOf i = some a ∧ dst a = .ok r ∧ t.regs = s.regs.set r v
  /-- 10_state.md R15. -/
  stack : t.stack = s.stack ∨ UsesStack i
  /-- 20_memory.md R34. -/
  mem : t.mem = s.mem ∨ ∃ a b, i = .wmem a b
  /-- 10_state.md R23; log 4. -/
  input : (t.inbuf = s.inbuf ∧ t.answers = s.answers) ∨ ∃ a, i = .inp a
  /-- 10_state.md R24. -/
  out : t.out = s.out ∨ ∃ a b, i = .out a ∧ t.out = s.out ++ [b]
  /-- 00_scope.md R6. -/
  params : t.params = s.params

section Frame

variable {i : Instr} {s t : State}

theorem ExecFrame.of_pc_status (pc : Word) (status : Status) :
    ExecFrame i s { s with pc := pc, status := status } where
  regs := .inl rfl
  stack := .inl rfl
  mem := .inl rfl
  input := .inl ⟨rfl, rfl⟩
  out := .inl rfl
  params := rfl

theorem ExecFrame.advance (n : Nat) : ExecFrame i s (s.advance n) := .of_pc_status _ _

theorem ExecFrame.takeFault (op : Option Word) (cause : FaultCause) : ExecFrame i s (s.takeFault op cause) :=
  .of_pc_status _ _

theorem ExecFrame.writeReg {u : State} {a : Word} {r : RegIdx} (hu : ExecFrame i s u) (hregs : u.regs = s.regs)
    (ha : destOf i = some a) (hr : dst a = .ok r) (n : Nat) : ExecFrame i s (u.writeReg r n) :=
  { hu with regs := .inr ⟨a, r, _, ha, hr, by rw [State.writeReg_regs, hregs]⟩ }

/-- The register write at the end of an instruction of `n` words. -/
theorem ExecFrame.advance_writeReg {a : Word} {r : RegIdx} (n : Nat) (ha : destOf i = some a) (hr : dst a = .ok r)
    (v : Nat) : ExecFrame i s ((s.advance n).writeReg r v) :=
  (ExecFrame.advance n).writeReg rfl ha hr v

theorem binary_frame {op a b c : Word} {f : Val → Val → Nat} (ha : destOf i = some a)
    (h : binary op f a b c s = .next t) : ExecFrame i s t := by
  rcases (binary_eq_next_iff op f a b c s t).1 h with ⟨_, _, _, hr, -, -, rfl⟩ | ⟨_, rfl, -⟩
  · exact .advance_writeReg 4 ha hr _
  · exact .takeFault _ _

theorem jumpIf_frame {op a b : Word} {taken : Bool} (h : jumpIf op taken a b s = .next t) : ExecFrame i s t := by
  rcases (jumpIf_eq_next_iff op taken a b s t).1 h with ⟨_, _, -, -, -, rfl⟩ | ⟨_, -, -, rfl⟩ | ⟨_, rfl, -⟩
  · exact .of_pc_status _ _
  · exact .of_pc_status _ _
  · exact .takeFault _ _

/-- After the advance, a pop changes the stack alone. -/
theorem ExecFrame.pop {u : State} {n : Nat} {w : Word} (hi : UsesStack i) (h : (s.advance n).pop = some (w, u)) :
    ExecFrame i s u ∧ u.regs = s.regs := by
  obtain ⟨_, -, rfl⟩ := (State.pop_eq_some_iff _ _ _).1 h
  exact ⟨{ ExecFrame.advance n with stack := .inr hi }, rfl⟩

theorem ExecFrame.push {u : State} {n : Nat} {w : Word} (hi : UsesStack i) (h : (s.advance n).push w = .ok u) :
    ExecFrame i s u := by
  obtain ⟨-, rfl⟩ := (State.push_eq_ok_iff _ _ _).1 h
  exact { ExecFrame.advance n with stack := .inr hi }

theorem ExecFrame.jump {u : State} (hu : ExecFrame i s u) (w : Word) : ExecFrame i s (u.jump w) := { hu with }

theorem execPop_frame {a : Word} (h : execPop a s = .next t) : ExecFrame (.pop a) s t := by
  rcases (execPop_eq_next_iff a s t).1 h with ⟨_, _, u, hr, hp, rfl⟩ | ⟨_, rfl, -⟩
  · obtain ⟨hu, hregs⟩ := ExecFrame.pop (i := .pop a) (.inr (.inl ⟨a, rfl⟩)) hp
    exact hu.writeReg hregs rfl hr _
  · exact .takeFault _ _

theorem execWmem_frame {a b : Word} (h : execWmem a b s = .next t) : ExecFrame (.wmem a b) s t := by
  rcases (execWmem_eq_next_iff a b s t).1 h with ⟨_, _, -, -, hw⟩ | ⟨_, rfl, -⟩
  · obtain ⟨-, rfl⟩ := (State.memWrite_eq_ok_iff _ _ _ _).1 hw
    exact { ExecFrame.advance 3 with mem := .inr ⟨a, b, rfl⟩ }
  · exact .takeFault _ _

theorem execRet_frame (h : execRet s = .next t) : ExecFrame .ret s t := by
  rcases (execRet_eq_next_iff s t).1 h with ⟨w, _, hp, rfl⟩ | ⟨-, rfl⟩
  · exact (ExecFrame.pop (.inr (.inr (.inr rfl))) hp).1.jump w
  · exact .of_pc_status _ _

theorem execIn_frame {a : Word} (h : execIn a s = .next t) : ExecFrame (.inp a) s t := by
  have hadv : ExecFrame (.inp a) s (s.advance 2) := .advance 2
  rcases (execIn_eq_next_iff a s t).1 h with
    ⟨_, _, u, hr, hu, rfl⟩ | ⟨_, u, -, hu, rfl⟩ | ⟨_, -, -, rfl⟩ | ⟨_, rfl, -⟩
  · obtain ⟨hframe, hregs⟩ : ExecFrame (.inp a) s u ∧ u.regs = s.regs := by
      rcases (State.nextInput_eq_byte_iff _ _ _).1 hu with ⟨_, -, rfl⟩ | ⟨_, _, -, -, rfl⟩
      · exact ⟨{ hadv with input := .inr ⟨a, rfl⟩ }, rfl⟩
      · exact ⟨{ hadv with input := .inr ⟨a, rfl⟩ }, rfl⟩
    exact hframe.writeReg hregs rfl hr _
  · obtain ⟨_, -, -, rfl⟩ := (State.nextInput_eq_endOfStream_iff _ _).1 hu
    exact { hadv with input := .inr ⟨a, rfl⟩ }
  · exact .of_pc_status _ _
  · exact .takeFault _ _

/-- Every instruction changes, besides pc and status, at most what the spec lets it change. -/
theorem exec_frame (i : Instr) (h : exec i s = .next t) : ExecFrame i s t := by
  cases i with
  | hlt | noop => cases h; exact .of_pc_status _ _
  | eq | gt | add | mul | and | or => exact binary_frame rfl h
  | jt | jf => exact jumpIf_frame h
  | pop => exact execPop_frame h
  | wmem => exact execWmem_frame h
  | ret => exact execRet_frame h
  | inp => exact execIn_frame h
  | set a b =>
    rcases (execSet_eq_next_iff a b s t).1 h with ⟨_, _, hr, -, rfl⟩ | ⟨_, rfl, -⟩
    · exact .advance_writeReg 3 rfl hr _
    · exact .takeFault _ _
  | mod a b c =>
    rcases (execMod_eq_next_iff a b c s t).1 h with ⟨_, _, _, hr, -, -, -, rfl⟩ | ⟨_, rfl, -⟩
    · exact .advance_writeReg 4 rfl hr _
    · exact .takeFault _ _
  | not a b =>
    rcases (execNot_eq_next_iff a b s t).1 h with ⟨_, _, hr, -, rfl⟩ | ⟨_, rfl, -⟩
    · exact .advance_writeReg 3 rfl hr _
    · exact .takeFault _ _
  | rmem a b =>
    rcases (execRmem_eq_next_iff a b s t).1 h with ⟨_, _, _, hr, -, -, rfl⟩ | ⟨_, rfl, -⟩
    · exact .advance_writeReg 3 rfl hr _
    · exact .takeFault _ _
  | push a =>
    rcases (execPush_eq_next_iff a s t).1 h with ⟨_, -, hp⟩ | ⟨_, rfl, -⟩
    · exact .push (.inl ⟨a, rfl⟩) hp
    · exact .takeFault _ _
  | call a =>
    rcases (execCall_eq_next_iff a s t).1 h with ⟨_, _, -, hp, rfl⟩ | ⟨_, rfl, -⟩
    · exact .jump (.push (.inr (.inr (.inl ⟨a, rfl⟩))) hp) _
    · exact .takeFault _ _
  | jmp a =>
    rcases (execJmp_eq_next_iff a s t).1 h with ⟨_, -, rfl⟩ | ⟨_, rfl, -⟩
    · exact .of_pc_status _ _
    · exact .takeFault _ _
  | out a =>
    rcases (execOut_eq_next_iff a s t).1 h with ⟨_, -, rfl⟩ | ⟨_, rfl, -⟩
    · exact { ExecFrame.advance 2 with out := .inr ⟨a, _, rfl, rfl⟩ }
    · exact .takeFault _ _

end Frame

/-- Settles O11: the frame gives at most one register write, to the register the destination operand names. -/
theorem registerChangesOnlyAsDestination : Obligations.RegisterChangesOnlyAsDestination := by
  intro i s t j hexec hdest
  rcases (exec_frame i hexec).regs with hregs | ⟨a, r, v, ha, hr, hregs⟩
  · rw [hregs]
  · have hne : j ≠ r := fun e => hdest a ha ((dst_eq_ok_iff a j).1 (e ▸ hr))
    rw [hregs, Regs.get_set_ne _ _ _ _ hne]

/-- Settles O13: each clause is a field of the frame. -/
theorem stackChannelsAndParamsFrame : Obligations.StackChannelsAndParamsFrame := by
  intro i s t hexec
  obtain ⟨-, hstack, -, hinput, hout, hparams⟩ := exec_frame i hexec
  refine ⟨hparams, hstack.resolve_left, fun hne => hinput.resolve_left ?_, hout.resolve_left⟩
  rintro ⟨hinbuf, hanswers⟩
  exact hne.elim (· hinbuf) (· hanswers)

/-! ### Reset, load and restart -/

/-- The loaded memory holds the image from address 0 on (70_reset_and_hazards.md R181). -/
theorem Memory.read_image (image : List Word) (k : Nat) (h : k < image.length) :
    Memory.read (Memory.writeAll [] 0 image) k = image[k] := by
  simpa using Memory.read_writeAll_inside [] 0 image k Memory.wf_nil h

/-- Beyond the image the loaded memory reads 0 (20_memory.md R40). -/
theorem Memory.read_beyond_image (image : List Word) (k : Nat) (h : image.length ≤ k) :
    Memory.read (Memory.writeAll [] 0 image) k = 0 := by
  exact Memory.read_writeAll_outside [] 0 k image (.inr (by omega))

theorem boot_eq_ok {image : List Word} {p : Config.Params} (answers : List (List Byte))
    (himage : image.length ≤ p.memSize) (hsize : p.memSize ≤ 32768) :
    boot image p answers =
      .ok { State.reset with mem := Memory.writeAll [] 0 image, params := p, answers := answers } :=
  (State.withImage_eq_ok_iff _ _ _ _).2 ⟨himage, hsize, rfl⟩

theorem State.isRunning_eq_false {s : State} (h : s.status ≠ .running) : s.isRunning = false :=
  Bool.eq_false_iff.2 fun hr => h (s.isRunning_iff.1 hr)

theorem State.restart_of_running {s : State} (h : s.status = .running) (image : List Word) (p : Config.Params) :
    s.restart image p = none :=
  if_pos (s.isRunning_iff.2 h)

/-- A restart answers what `boot` answers, refusals included: reset and load replace every field but `answers`. -/
theorem State.restart_of_ended {s : State} (h : s.status ≠ .running) (image : List Word) (p : Config.Params) :
    s.restart image p = some (boot image p s.answers) := by
  rw [State.restart, State.isRunning_eq_false h]
  rfl

theorem State.load_of_ended {s : State} (h : s.status ≠ .running) (image : List Word) (p : Config.Params) :
    s.load image p = boot image p s.answers := by
  rw [State.load, State.restart_of_ended h, Option.getD_some]

theorem State.finalState_of_ended {s : State} (h : s.status ≠ .running) : s.finalState = some s := by
  rw [State.finalState, State.isRunning_eq_false h]
  rfl

theorem State.runResult_of_halted {s : State} {reason : HaltReason} (h : s.status = .halted reason) :
    s.runResult = some (.haltedNormally reason) := by
  rw [State.runResult, h]

theorem State.runResult_of_faulted {s : State} {record : FaultRecord} (h : s.status = .faulted record) :
    s.runResult = some (.abortedByFault record) := by
  rw [State.runResult, h]

/-- Settles O46: the first state is the reset state with the image loaded. -/
theorem bootGivesStatedResetState : Obligations.BootGivesStatedResetState := by
  intro image p answers himage hsize
  exact ⟨_, boot_eq_ok answers himage hsize, Regs.get_zero, rfl, rfl, Memory.read_image image,
    fun k hk _ => Memory.read_beyond_image image k hk, rfl, rfl, rfl⟩

/-- Settles O15. -/
theorem resetMeetsReachableInvariant : Obligations.ResetMeetsReachableInvariant := State.inv_reset

/-- Settles O50: registers are `Regs.zero`, and the memory before a load lists no cell. -/
theorem resetFieldsAsStated : Obligations.ResetFieldsAsStated :=
  ⟨Regs.get_zero, rfl, rfl, rfl, rfl, rfl, Memory.read_nil⟩

/-- Settles O51: after the end of a run a restart answers what `boot` answers, the reset state with the image loaded. -/
theorem restartOnlyFromEndedRun : Obligations.RestartOnlyFromEndedRun := by
  intro s image p
  refine ⟨fun hrun => State.restart_of_running hrun image p, fun hended himage hsize => ?_⟩
  have hrestart := State.restart_of_ended hended image p
  rw [boot_eq_ok s.answers himage hsize] at hrestart
  exact ⟨_, hrestart, rfl, Regs.get_zero, rfl, rfl, rfl, rfl, Memory.read_image image,
    fun k hk _ => Memory.read_beyond_image image k hk, rfl, rfl⟩

/-- Settles O54: an ended run is halted or faulted, and its load is a restart, which is `boot`. -/
theorem loadAfterRunStartsAfresh : Obligations.LoadAfterRunStartsAfresh := by
  intro s hended
  refine ⟨?_, State.finalState_of_ended hended, State.load_of_ended hended⟩
  cases hs : s.status with
  | running => exact absurd hs hended
  | halted reason => exact ⟨_, State.runResult_of_halted hs, .inl ⟨reason, rfl, rfl⟩⟩
  | faulted record => exact ⟨_, State.runResult_of_faulted hs, .inr ⟨record, rfl, rfl⟩⟩

end Sys2Proof.Machine

/-! ## Stores and what sees them

`Wmem` and `Rmem` on resolved operands, each as one equation; a later read or fetch then sees a store by the
read-after-write law of memory (20_memory.md R34, R35, R45, R46, R47). -/

namespace Sys2Proof.Machine

open Sys2Proof.Spec

/-! ### Operands and decoding in the statements' terms -/

/-- The statements' source relation is what `v(w)` answers (40_step_and_operands.md R74). -/
theorem readsAs_iff_source (s : State) (pos : OperandPos) (w : Word) (n : Nat) :
    ReadsAs s w n ↔ ∃ v : Val, source s pos w = .ok v ∧ v.toNat = n := by
  simp only [source_eq_ok_iff]
  constructor
  · rintro (⟨hw, rfl⟩ | ⟨r, hw, rfl⟩)
    · have hval : (BitVec.ofNat 15 w.toNat).toNat = w.toNat := by
        rw [BitVec.toNat_ofNat]
        omega
      exact ⟨BitVec.ofNat 15 w.toNat, .inl ⟨hw, hval⟩, hval⟩
    · exact ⟨s.regs.get r, .inr ⟨r, hw, rfl⟩, rfl⟩
  · rintro ⟨v, ⟨hw, hv⟩ | ⟨r, hw, rfl⟩, rfl⟩
    · exact .inl ⟨hw, hv⟩
    · exact .inr ⟨r, hw, rfl⟩

theorem readsAs_of_source {s : State} {pos : OperandPos} {w : Word} {v : Val} (h : source s pos w = .ok v) :
    ReadsAs s w v.toNat :=
  (readsAs_iff_source s pos w _).2 ⟨v, h, rfl⟩

theorem readsAs_le {s : State} {w : Word} {n : Nat} (h : ReadsAs s w n) : n ≤ 32767 := by
  obtain ⟨v, -, rfl⟩ := (readsAs_iff_source s .a w n).1 h
  exact Val.toNat_le v

/-- When the words of an instruction stand at pc, all of them in memory, the decode phase answers that instruction
(40_step_and_operands.md R71). -/
theorem State.decodePhase_of_wordsAtPc {s : State} {i : Instr}
    (hin : s.pc.toNat + (encode i).length ≤ s.params.memSize)
    (hwords : wordsAtPc s (encode i).length = encode i) : s.decodePhase = .ok i := by
  have hfetch : ∀ k, ∀ h : k < (encode i).length, s.fetchWord k = .ok (encode i)[k] := fun k h =>
    (State.fetchWord_eq_ok_iff s k _).2 ⟨by omega, by simpa using List.getElem_of_eq hwords.symm h⟩
  have hoperand : ∀ k, ∀ h : k < i.operands.length, s.fetchWord (k + 1) = .ok i.operands[k] := fun k h =>
    hfetch (k + 1) (by rw [encode_length]; omega)
  exact (State.decodePhase_eq_ok_iff s i).2
    ⟨i.opcode, hfetch 0 (Nat.succ_pos _), (decodeOp_eq_ok_iff _ _ _ _).2 ⟨rfl, hoperand⟩⟩

/-! ### Wmem and Rmem on resolved operands -/

/-- 45_memory_ops.md R121, the case without a fault. -/
theorem exec_wmem_of_readsAs {s : State} {a b : Word} {addr v : Nat} (ha : ReadsAs s a addr) (hb : ReadsAs s b v)
    (haddr : addr < s.params.memSize) :
    exec (.wmem a b) s = .next { s.advance 3 with mem := Memory.write s.mem addr (BitVec.ofNat 16 v) } := by
  obtain ⟨va, hva, rfl⟩ := (readsAs_iff_source s .a a addr).1 ha
  obtain ⟨vb, hvb, rfl⟩ := (readsAs_iff_source s .b b v).1 hb
  exact (execWmem_eq_next_iff a b s _).2 (.inl ⟨va, vb, hva, hvb, (State.memWrite_eq_ok_iff _ _ _ _).2 ⟨haddr, rfl⟩⟩)

/-- 45_memory_ops.md R120, the case without a fault. -/
theorem exec_rmem_of_readsAs {s : State} {a b : Word} {i : RegIdx} {addr : Nat} (ha : NamesReg a i)
    (hb : ReadsAs s b addr) (haddr : addr < s.params.memSize) :
    exec (.rmem a b) s = .next ((s.advance 3).writeReg i (Memory.read s.mem addr).toNat) := by
  obtain ⟨vb, hvb, rfl⟩ := (readsAs_iff_source s .b b addr).1 hb
  exact (execRmem_eq_next_iff a b s _).2
    (.inl ⟨i, vb, _, (dst_eq_ok_iff a i).2 ha, hvb, (State.memRead_eq_ok_iff _ _ _ _).2 ⟨haddr, rfl⟩, rfl⟩)

/-! ### The statements on memory -/

/-- Settles O12: the frame leaves only a `Wmem` that stored, and a cell it changed is the one it wrote. -/
theorem memoryChangesOnlyAtWmemAddress : Obligations.MemoryChangesOnlyAtWmemAddress := by
  intro i s t addr hwf hexec hne
  obtain ⟨a, b, rfl⟩ := (exec_frame i hexec).mem.resolve_left fun hmem => hne (by rw [hmem])
  rcases (execWmem_eq_next_iff a b s t).1 hexec with ⟨va, vb, ha, hb, hw⟩ | ⟨_, rfl, -⟩
  · obtain ⟨-, rfl⟩ := (State.memWrite_eq_ok_iff _ _ _ _).1 hw
    have haddr : addr = va.toNat := by
      by_contra h
      exact hne (Memory.read_write_ne _ _ _ _ h)
    subst haddr
    have hread : Memory.read (Memory.write s.mem va.toNat (Val.word vb)) va.toNat = Val.word vb :=
      Memory.read_write_same _ _ _ hwf
    refine ⟨a, b, rfl, readsAs_of_source ha, ?_⟩
    simp only [State.advance_mem, hread, Val.word_toNat]
    exact ⟨readsAs_of_source hb, Val.toNat_le vb⟩
  · exact absurd rfl hne

/-- Settles O35: the cell holds the stored value, which is below 32768, so the register write keeps it whole. -/
theorem rmemReadsBackWhatWmemStored : Obligations.RmemReadsBackWhatWmemStored := by
  intro a b c d addr v i s hwf ha hb haddr hc
  refine ⟨_, exec_wmem_of_readsAs ha hb haddr, fun u hcell hparams hd => ?_⟩
  rw [Memory.read_write_same _ _ _ hwf] at hcell
  refine ⟨_, exec_rmem_of_readsAs hc hd (hparams ▸ haddr), ?_⟩
  have hv := readsAs_le hb
  rw [State.writeReg_get_same, hcell, BitVec.toNat_ofNat]
  omega

/-- Settles O36: a fetch reads the cell, which holds the stored value. -/
theorem storeSeenByLaterFetch : Obligations.StoreSeenByLaterFetch := by
  intro a b addr v s hwf ha hb haddr
  refine ⟨_, exec_wmem_of_readsAs ha hb haddr, fun u k hcell hparams hpc => ?_⟩
  rw [Memory.read_write_same _ _ _ hwf] at hcell
  rw [State.fetchWord_eq_ok_iff, hpc, hparams]
  exact ⟨haddr, hcell.symm⟩

/-- Settles O37: the three words were fetched before the store, so the step is the execution of the `Wmem`. -/
theorem storeOverOwnWordsCompletes : Obligations.StoreOverOwnWordsCompletes := by
  intro a b k v s hrun hwf hin hwords hk ha hb
  have hstep : step s = exec (.wmem a b) s :=
    step_of_decodePhase_ok s _ hrun (State.decodePhase_of_wordsAtPc hin hwords)
  refine ⟨_, hstep.trans (exec_wmem_of_readsAs ha hb (by omega)), hrun, rfl, rfl, ?_⟩
  have hv := readsAs_le hb
  rw [Memory.read_write_same _ _ _ hwf, BitVec.toNat_ofNat]
  omega

end Sys2Proof.Machine

/-! ## Encoding and decoding

A list of words decodes to an instruction exactly when the instruction's encoding heads it (`decode_eq_ok_iff`); the
round trips in both directions and the unique reading of a program are read off from it (30_encoding.md R50, R52). -/

namespace Sys2Proof

open Sys2Proof.Spec

/-! ### Lists of words -/

theorem wordAt_eq_ok_iff (ws : List Word) (k : Nat) (w : Word) : wordAt ws k = .ok w ↔ ws[k]? = some w := by
  unfold wordAt
  cases ws[k]? <;> simp

theorem decode_nil : decode [] = .error (.missingWord 0) := rfl

theorem decode_cons (op : Word) (ws : List Word) :
    decode (op :: ws) =
      (decodeOp op (.unknownOpcode op) (wordAt (op :: ws))).map fun i => (i, ws.drop i.operands.length) := by
  simp only [decode, Nat.add_comm 1, List.drop_succ_cons]
  rfl

/-- The operand words that follow an opcode word are read as those of `i` exactly when they head the rest. -/
theorem decodeOp_wordAt_eq_ok_iff (op : Word) (unknown : DecodeError) (ws : List Word) (i : Instr) :
    decodeOp op unknown (wordAt (op :: ws)) = .ok i ↔ op = i.opcode ∧ i.operands <+: ws := by
  simp only [decodeOp_eq_ok_iff, wordAt_eq_ok_iff, List.getElem?_cons_succ, List.prefix_iff_getElem?]

theorem decode_cons_eq_ok_iff (op : Word) (ws rest : List Word) (i : Instr) :
    decode (op :: ws) = .ok (i, rest) ↔
      op = i.opcode ∧ i.operands <+: ws ∧ ws.drop i.operands.length = rest := by
  rw [decode_cons, ← and_assoc, ← decodeOp_wordAt_eq_ok_iff op (.unknownOpcode op)]
  cases decodeOp op (.unknownOpcode op) (wordAt (op :: ws)) with
  | error e => simp [Except.map]
  | ok j =>
    simp only [Except.map, Except.ok.injEq, Prod.mk.injEq]
    exact and_congr_right fun h => by rw [h]

/-- The decoder answers an instruction exactly when its encoding heads the list. -/
theorem decode_eq_ok_iff (ws rest : List Word) (i : Instr) :
    decode ws = .ok (i, rest) ↔ ws = encode i ++ rest := by
  cases ws with
  | nil => simp [decode_nil, encode]
  | cons op ws =>
    rw [decode_cons_eq_ok_iff, encode, List.cons_append, List.cons.injEq, List.prefix_iff_eq_append]
    refine and_congr_right fun _ => ⟨?_, ?_⟩
    · rintro ⟨hprefix, rfl⟩
      exact hprefix.symm
    · rintro rfl
      rw [List.drop_left]
      exact ⟨rfl, rfl⟩

theorem decode_encode_append (i : Instr) (rest : List Word) : decode (encode i ++ rest) = .ok (i, rest) :=
  (decode_eq_ok_iff _ _ _).2 rfl

theorem encode_append_inj {i j : Instr} {ws vs : List Word} (h : encode i ++ ws = encode j ++ vs) :
    i = j ∧ ws = vs := by
  have hdec := decode_encode_append i ws
  rw [h, decode_encode_append j vs] at hdec
  cases hdec
  exact ⟨rfl, rfl⟩

/-- 30_encoding.md R58: an unknown opcode is rejected before any operand word is asked for. -/
theorem decodeOp_of_unknown {ε : Type} {op : Word} (hop : 22 ≤ op.toNat) (unknown : ε)
    (operand : Nat → Except ε Word) : decodeOp op unknown operand = .error unknown :=
  (decodeOp_eq_error_iff operand op unknown unknown).2 (.inl ⟨hop, rfl⟩)

/-! ### The numeral of the opcode table -/

theorem tableNumeral_lt (ws : List Word) : tableNumeral ws < 2 ^ (16 * ws.length) := by
  induction ws with
  | nil => exact Nat.one_pos
  | cons w ws ih =>
    have hw := w.isLt
    rw [tableNumeral, List.length_cons, Nat.mul_succ, pow_add]
    omega

/-- Word `k` of the numeral is word `k` of the list, and 0 beyond its end. -/
theorem ofNat_tableNumeral_div (ws : List Word) (k : Nat) :
    BitVec.ofNat 16 (tableNumeral ws / 2 ^ (16 * k)) = ws.getD k 0 := by
  induction ws generalizing k with
  | nil => simp [tableNumeral]
  | cons w ws ih =>
    have hw := w.isLt
    cases k with
    | zero =>
      refine BitVec.eq_of_toNat_eq ?_
      simp only [tableNumeral, Nat.mul_zero, pow_zero, Nat.div_one, BitVec.toNat_ofNat, List.getD_cons_zero]
      omega
    | succ k =>
      have hdiv : tableNumeral (w :: ws) / 2 ^ (16 * (k + 1)) = tableNumeral ws / 2 ^ (16 * k) := by
        rw [tableNumeral, Nat.mul_succ, Nat.add_comm (16 * k), pow_add, ← Nat.div_div_eq_div_mul]
        congr 1
        omega
      rw [hdiv, ih, List.getD_cons_succ]

/-- The words of a list's numeral are the list, filled up with zeros to the longest instruction. -/
theorem tableWords_tableNumeral (ws : List Word) (h : ws.length ≤ Config.longestInstr) :
    tableWords (16 * ws.length) (tableNumeral ws) = ws ++ List.replicate (Config.longestInstr - ws.length) 0 := by
  simp only [tableWords, Nat.mod_eq_of_lt (tableNumeral_lt ws), ofNat_tableNumeral_div]
  refine List.ext_getElem (by simp [h]) fun k _ _ => ?_
  simp only [List.getElem_map, List.getElem_range, List.getElem_append, List.getElem_replicate,
    List.getD_eq_getElem?_getD]
  split
  · next hk => rw [List.getElem?_eq_getElem hk, Option.getD_some]
  · next hk => rw [List.getElem?_eq_none (not_lt.1 hk), Option.getD_none]

/-- 30_encoding.md R50: at most four words. -/
theorem encode_length_le (i : Instr) : (encode i).length ≤ Config.longestInstr := by
  cases i <;> simp [encode, Instr.operands, Config.longestInstr]

/-! ### The statements on the encoding -/

/-- Settles O1: the encoding heads the list, and the numeral's words are the encoding with zeros after it. -/
theorem decodeOfEncodeGivesInstructionBack : Obligations.DecodeOfEncodeGivesInstructionBack := by
  refine ⟨decode_encode_append, fun i => ?_⟩
  rw [decodeTableWord, tableWords_tableNumeral _ (encode_length_le i), decode_encode_append]

/-- Settles O2, by induction on the list: the first instruction and the words after it are determined. -/
theorem programWordsDetermineInstructions : Obligations.ProgramWordsDetermineInstructions := by
  intro p
  induction p with
  | nil =>
    rintro (_ | ⟨j, q⟩) h
    · rfl
    · simp [encode] at h
  | cons i p ih =>
    rintro (_ | ⟨j, q⟩) h
    · simp [encode] at h
    · rw [List.flatMap_cons, List.flatMap_cons] at h
      obtain ⟨rfl, htail⟩ := encode_append_inj h
      rw [ih q htail]

/-- Settles O3. -/
theorem encodeOfDecodedGivesWordsBack : Obligations.EncodeOfDecodedGivesWordsBack :=
  fun ws rest i => (decode_eq_ok_iff ws rest i).1

/-- Settles O5: each word list is the encoding of its instruction followed by the words left. -/
theorem opcodeMapWordsDecode : Obligations.OpcodeMapWordsDecode :=
  ⟨decode_encode_append (.set 32769 5) [], decode_encode_append (.push 32768) [],
    decode_encode_append (.gt 32768 5 3) [], decode_encode_append (.jt 32768 20) [],
    decode_encode_append (.add 32768 32768 1) [0], decode_encode_append (.wmem 4 66) [19, 65, 0],
    decode_encode_append (.call 5) [], decode_encode_append (.inp 32768) [], decode_encode_append .noop [0]⟩

end Sys2Proof

/-! ## The faults of an execution

The status an execution ends in, and the check that raised its fault, are said once for every instruction
(`exec_ends`); that legal operand words exclude the operand faults follows (60_exceptions.md R153, R158). -/

namespace Sys2Proof.Machine

open Sys2Proof.Spec

/-! ### Unknown opcodes -/

/-- Settles O4: the opcode map rejects the word, for the decoder of lists and for the decode phase of a step. -/
theorem unknownOpcodeRaisesInvalidOpcode : Obligations.UnknownOpcodeRaisesInvalidOpcode := by
  refine ⟨fun op rest hop => ?_, fun s hrun hpc hop => ?_⟩
  · rw [decode_cons, decodeOp_of_unknown hop]
    rfl
  · have hfetch : s.fetchWord 0 = .ok (Memory.read s.mem s.pc.toNat) :=
      (State.fetchWord_eq_ok_iff s 0 _).2 ⟨hpc, rfl⟩
    exact step_of_decodePhase_error s _ hrun
      ((State.decodePhase_eq_error_iff s _).2 (.inr ⟨_, _, hfetch, decodeOp_of_unknown hop _ _, rfl⟩))

/-! ### The check that raised the fault -/

/-- A check that the execution of `i` in `s` makes faults with the given cause (60_exceptions.md R152 to R158). -/
inductive ExecFault (i : Instr) (s : State) (cause : FaultCause) : Prop where
  | dest {a : Word} (ha : destOf i = some a) (h : dst a = .error cause)
  | source {pos : OperandPos} {w : Word} (hw : (pos, w) ∈ sourcesOf i) (h : source s pos w = .error cause)
  | memRead {a b : Word} {addr : Val} (hi : i = .rmem a b) (hb : Machine.source s .b b = .ok addr)
      (h : s.memRead addr.toNat .dataRead = .error cause)
  | memWrite {a b : Word} {addr v : Val} (hi : i = .wmem a b) (ha : Machine.source s .a a = .ok addr)
      (h : (s.advance 3).memWrite addr.toNat (Val.word v) = .error cause)
  | divisionByZero {a b c : Word} {vc : Val} (hi : i = .mod a b c) (hc : Machine.source s .c c = .ok vc)
      (h0 : vc.toNat = 0) (h : cause = .divisionByZero)
  | stackUnderflow {a : Word} (hi : i = .pop a) (hs : s.stack = []) (h : cause = .stackUnderflow)
  | push {w : Word} {n : Nat} (hi : (∃ a, i = .push a) ∨ ∃ a, i = .call a) (h : (s.advance n).push w = .error cause)

/-- How the execution of `i` in `s` ends in `t`: with the status kept, halted, or with a fault taken in `s`. -/
inductive ExecEnds (i : Instr) (s : State) : State → Prop where
  | kept {t : State} (h : t.status = s.status) : ExecEnds i s t
  | halted {t : State} {reason : HaltReason} (h : t.status = .halted reason) : ExecEnds i s t
  | faulted {cause : FaultCause} (h : ExecFault i s cause) : ExecEnds i s (s.takeFault (some i.opcode) cause)

section Ends

variable {i : Instr} {s t : State}

theorem binary_ends {a b c : Word} {f : Val → Val → Nat} (ha : destOf i = some a)
    (hsrc : sourcesOf i = [(.b, b), (.c, c)]) (h : binary i.opcode f a b c s = .next t) : ExecEnds i s t := by
  rcases (binary_eq_next_iff _ f a b c s t).1 h with ⟨_, _, _, -, -, -, rfl⟩ | ⟨_, rfl, hd | ⟨-, hb | ⟨-, hc⟩⟩⟩
  · exact .kept rfl
  · exact .faulted (.dest ha hd)
  · exact .faulted (.source (by simp [hsrc]) hb)
  · exact .faulted (.source (by simp [hsrc]) hc)

theorem jumpIf_ends {a b : Word} {taken : Bool} (hsrc : sourcesOf i = [(.a, a), (.b, b)])
    (h : jumpIf i.opcode taken a b s = .next t) : ExecEnds i s t := by
  rcases (jumpIf_eq_next_iff _ taken a b s t).1 h with ⟨_, _, -, -, -, rfl⟩ | ⟨_, -, -, rfl⟩ | ⟨_, rfl, ha | ⟨-, hb⟩⟩
  · exact .kept rfl
  · exact .kept rfl
  · exact .faulted (.source (by simp [hsrc]) ha)
  · exact .faulted (.source (by simp [hsrc]) hb)

theorem execMod_ends {a b c : Word} (h : execMod a b c s = .next t) : ExecEnds (.mod a b c) s t := by
  rcases (execMod_eq_next_iff a b c s t).1 h with
    ⟨_, _, _, -, -, -, -, rfl⟩ | ⟨_, rfl, hd | ⟨-, hb | ⟨-, hc | ⟨⟨_, hc, h0⟩, hz⟩⟩⟩⟩
  · exact .kept rfl
  · exact .faulted (.dest rfl hd)
  · exact .faulted (.source (by simp [sourcesOf]) hb)
  · exact .faulted (.source (by simp [sourcesOf]) hc)
  · exact .faulted (.divisionByZero rfl hc h0 hz)

theorem execRmem_ends {a b : Word} (h : execRmem a b s = .next t) : ExecEnds (.rmem a b) s t := by
  rcases (execRmem_eq_next_iff a b s t).1 h with
    ⟨_, _, _, -, -, -, rfl⟩ | ⟨_, rfl, hd | ⟨-, hb | ⟨_, hb, hm⟩⟩⟩
  · exact .kept rfl
  · exact .faulted (.dest rfl hd)
  · exact .faulted (.source (by simp [sourcesOf]) hb)
  · exact .faulted (.memRead rfl hb hm)

theorem execWmem_ends {a b : Word} (h : execWmem a b s = .next t) : ExecEnds (.wmem a b) s t := by
  rcases (execWmem_eq_next_iff a b s t).1 h with ⟨_, _, -, -, hw⟩ | ⟨_, rfl, ha | ⟨_, ha, hb | ⟨_, -, hm⟩⟩⟩
  · obtain ⟨-, rfl⟩ := (State.memWrite_eq_ok_iff _ _ _ _).1 hw
    exact .kept rfl
  · exact .faulted (.source (by simp [sourcesOf]) ha)
  · exact .faulted (.source (by simp [sourcesOf]) hb)
  · exact .faulted (.memWrite rfl ha hm)

theorem execIn_ends {a : Word} (h : execIn a s = .next t) : ExecEnds (.inp a) s t := by
  rcases (execIn_eq_next_iff a s t).1 h with
    ⟨_, _, u, -, hu, rfl⟩ | ⟨_, _, -, -, rfl⟩ | ⟨_, -, -, rfl⟩ | ⟨_, rfl, hd⟩
  · rcases (State.nextInput_eq_byte_iff _ _ _).1 hu with ⟨_, -, rfl⟩ | ⟨_, _, -, -, rfl⟩
    · exact .kept rfl
    · exact .kept rfl
  · exact .halted rfl
  · exact .kept rfl
  · exact .faulted (.dest rfl hd)

/-- Every execution keeps the status, halts, or takes in its first state a fault that one of its checks raised. -/
theorem exec_ends (i : Instr) (h : exec i s = .next t) : ExecEnds i s t := by
  cases i with
  | hlt => cases h; exact .halted rfl
  | noop => cases h; exact .kept rfl
  | eq | gt | add | mul | and | or => exact binary_ends rfl rfl h
  | jt | jf => exact jumpIf_ends rfl h
  | mod => exact execMod_ends h
  | rmem => exact execRmem_ends h
  | wmem => exact execWmem_ends h
  | inp => exact execIn_ends h
  | set a b =>
    rcases (execSet_eq_next_iff a b s t).1 h with ⟨_, _, -, -, rfl⟩ | ⟨_, rfl, hd | ⟨-, hb⟩⟩
    · exact .kept rfl
    · exact .faulted (.dest rfl hd)
    · exact .faulted (.source (by simp [sourcesOf]) hb)
  | not a b =>
    rcases (execNot_eq_next_iff a b s t).1 h with ⟨_, _, -, -, rfl⟩ | ⟨_, rfl, hd | ⟨-, hb⟩⟩
    · exact .kept rfl
    · exact .faulted (.dest rfl hd)
    · exact .faulted (.source (by simp [sourcesOf]) hb)
  | push a =>
    rcases (execPush_eq_next_iff a s t).1 h with ⟨_, -, hp⟩ | ⟨_, rfl, ha | ⟨_, -, hp⟩⟩
    · exact .kept ((State.push_status hp).trans rfl)
    · exact .faulted (.source (by simp [sourcesOf]) ha)
    · exact .faulted (.push (.inl ⟨a, rfl⟩) hp)
  | pop a =>
    rcases (execPop_eq_next_iff a s t).1 h with ⟨_, _, _, -, hp, rfl⟩ | ⟨_, rfl, hd | ⟨-, hs, hu⟩⟩
    · exact .kept ((State.pop_status hp).trans rfl)
    · exact .faulted (.dest rfl hd)
    · exact .faulted (.stackUnderflow rfl hs hu)
  | call a =>
    rcases (execCall_eq_next_iff a s t).1 h with ⟨_, _, -, hp, rfl⟩ | ⟨_, rfl, ha | ⟨-, hp⟩⟩
    · exact .kept ((State.push_status hp).trans rfl)
    · exact .faulted (.source (by simp [sourcesOf]) ha)
    · exact .faulted (.push (.inr ⟨a, rfl⟩) hp)
  | ret =>
    rcases (execRet_eq_next_iff s t).1 h with ⟨_, _, hp, rfl⟩ | ⟨-, rfl⟩
    · exact .kept ((State.pop_status hp).trans rfl)
    · exact .halted rfl
  | jmp a =>
    rcases (execJmp_eq_next_iff a s t).1 h with ⟨_, -, rfl⟩ | ⟨_, rfl, ha⟩
    · exact .kept rfl
    · exact .faulted (.source (by simp [sourcesOf]) ha)
  | out a =>
    rcases (execOut_eq_next_iff a s t).1 h with ⟨_, -, rfl⟩ | ⟨_, rfl, ha⟩
    · exact .kept rfl
    · exact .faulted (.source (by simp [sourcesOf]) ha)

/-- An execution that turns a running state into a faulted one took a fault that one of its checks raised. -/
theorem exec_faulted {r : FaultRecord} (hexec : exec i s = .next t) (hrun : s.status = .running)
    (hr : t.status = .faulted r) : ExecFault i s r.cause ∧ r = ⟨r.cause, s.pc, some i.opcode⟩ := by
  cases exec_ends i hexec with
  | kept h => simp [h, hrun] at hr
  | halted h => simp [h] at hr
  | faulted h =>
    cases hr
    exact ⟨h, rfl⟩

end Ends

/-! ### Legal operands -/

/-- Well-formedness by the roles of the operand words (30_encoding.md R59). -/
theorem wellFormed_iff (i : Instr) :
    i.wellFormed = true ↔
      (∀ a, destOf i = some a → destLegal a = true) ∧ ∀ p ∈ sourcesOf i, sourceLegal p.2 = true := by
  cases i <;> simp [Instr.wellFormed, destOf, sourcesOf, and_assoc]

theorem dst_ne_error_of_destLegal {a : Word} (h : destLegal a = true) (cause : FaultCause) :
    dst a ≠ .error cause := fun he =>
  absurd ((dst_eq_error_iff a cause).1 he).1 (not_le.2 (of_decide_eq_true h))

theorem source_ne_error_of_sourceLegal {w : Word} (h : sourceLegal w = true) (s : State) (pos : OperandPos)
    (cause : FaultCause) : source s pos w ≠ .error cause := fun he =>
  absurd ((source_eq_error_iff s pos w cause).1 he).1 (not_le.2 (of_decide_eq_true h))

/-- Settles O16: the operand checks of a well-formed instruction pass, and every other check raises another kind. -/
theorem legalOperandsNeverRaiseOperandFaults : Obligations.LegalOperandsNeverRaiseOperandFaults := by
  intro i s t r hwf hrun hexec hr
  obtain ⟨hdest, hsource⟩ := (wellFormed_iff i).1 hwf
  cases (exec_faulted hexec hrun hr).1 with
  | dest ha h => exact absurd h (dst_ne_error_of_destLegal (hdest _ ha) _)
  | source hw h => exact absurd h (source_ne_error_of_sourceLegal (hsource _ hw) _ _ _)
  | memRead _ _ h => simp [((State.memRead_eq_error_iff _ _ _ _).1 h).2, FaultCause.kind]
  | memWrite _ _ h => simp [((State.memWrite_eq_error_iff _ _ _ _).1 h).2, FaultCause.kind]
  | divisionByZero _ _ _ h => simp [h, FaultCause.kind]
  | stackUnderflow _ _ h => simp [h, FaultCause.kind]
  | push _ h => simp [((State.push_eq_error_iff _ _ _).1 h).2, FaultCause.kind]

end Sys2Proof.Machine

/-! ## The step

What the decode phase answers in terms of the words at pc (40_step_and_operands.md R71), and from it the statements on
a step as a whole (R70, R79). -/

namespace Sys2Proof

open Sys2Proof.Spec

/-- The opcode map answers an instruction for a known opcode whose operand words are all supplied. -/
theorem exists_decodeOp_eq_ok {ε : Type} {operand : Nat → Except ε Word} {op : Word} {n : Nat}
    (hn : arityOf op = some n) (unknown : ε) (hsupplied : ∀ k < n, ∃ w, operand (k + 1) = .ok w) :
    ∃ i, decodeOp op unknown operand = .ok i := by
  cases hdec : decodeOp op unknown operand with
  | ok i => exact ⟨i, rfl⟩
  | error e =>
    rcases (decodeOp_eq_error_iff operand op unknown e).1 hdec with ⟨hop, -⟩ | ⟨m, hm, k, hk, hmissing, -⟩
    · simp [(arityOf_eq_none_iff op).2 hop] at hn
    · obtain rfl : n = m := Option.some.inj (hn.symm.trans hm)
      obtain ⟨w, hw⟩ := hsupplied k hk
      simp [hw] at hmissing

theorem decodeTableWord_eq_some_iff (nbits w : Nat) (i : Instr) :
    decodeTableWord nbits w = some i ↔ encode i <+: tableWords nbits w := by
  constructor
  · intro h
    unfold decodeTableWord at h
    split at h
    · next j rest hdec =>
      cases h
      exact ⟨rest, ((decode_eq_ok_iff _ _ _).1 hdec).symm⟩
    · cases h
  · rintro ⟨rest, hrest⟩
    rw [decodeTableWord, (decode_eq_ok_iff _ _ _).2 hrest.symm]

end Sys2Proof

namespace Sys2Proof.Machine

open Sys2Proof.Spec

/-! ### The decode phase and the words at pc -/

/-- The words of the instruction that the decode phase answers stand at pc. -/
theorem State.wordsAtPc_of_decodePhase {s : State} {i : Instr} (h : s.decodePhase = .ok i) :
    wordsAtPc s (encode i).length = encode i := by
  obtain ⟨op, hop, hdec⟩ := (State.decodePhase_eq_ok_iff s i).1 h
  obtain ⟨rfl, hoperand⟩ := (decodeOp_eq_ok_iff _ _ _ _).1 hdec
  refine List.ext_getElem (by simp) fun k _ hk => ?_
  rw [List.getElem_map, List.getElem_range]
  cases k with
  | zero => exact ((State.fetchWord_eq_ok_iff s 0 _).1 hop).2.symm
  | succ k =>
    have hlt : k < i.operands.length := Nat.lt_of_succ_lt_succ hk
    exact ((State.fetchWord_eq_ok_iff s (k + 1) _).1 (hoperand k hlt)).2.symm

/-- The opcode fetch fails when pc is outside memory. -/
theorem State.decodePhase_of_pc_outside {s : State} (hpc : s.params.memSize ≤ s.pc.toNat) :
    s.decodePhase = .error (s.takeFault none (.outOfBounds s.pc.toNat .fetch)) :=
  (State.decodePhase_eq_error_iff s _).2 (.inl ⟨_, (State.fetchWord_eq_error_iff s 0 _).2 ⟨hpc, rfl⟩, rfl⟩)

/-- The first operand word that is not in memory is the one at address `MEM_SIZE`. -/
theorem State.decodePhase_of_operand_outside {s : State} {n : Nat} (hpc : s.pc.toNat < s.params.memSize)
    (hn : arityOf (Memory.read s.mem s.pc.toNat) = some n) (hout : s.params.memSize ≤ s.pc.toNat + n) :
    s.decodePhase = .error
      (s.takeFault (some (Memory.read s.mem s.pc.toNat)) (.outOfBounds s.params.memSize .fetch)) := by
  obtain ⟨k, hk⟩ : ∃ k, s.params.memSize = s.pc.toNat + (k + 1) := Nat.exists_eq_add_of_lt hpc
  have hmissing : FirstMissing s.fetchWord n (.outOfBounds s.params.memSize .fetch) :=
    ⟨k, by omega, (State.fetchWord_eq_error_iff s _ _).2 ⟨hk.le, by rw [hk]⟩,
      fun j hj => ⟨_, (State.fetchWord_eq_ok_iff s _ _).2 ⟨by omega, rfl⟩⟩⟩
  exact (State.decodePhase_eq_error_iff s _).2 (.inr ⟨_, _, (State.fetchWord_eq_ok_iff s 0 _).2 ⟨hpc, rfl⟩,
    (decodeOp_eq_error_iff _ _ _ _).2 (.inr ⟨n, hn, hmissing⟩), rfl⟩)

/-- A known opcode whose operand words are all in memory is decoded from the words at pc. -/
theorem State.decodePhase_of_words_inside {s : State} {n : Nat}
    (hn : arityOf (Memory.read s.mem s.pc.toNat) = some n) (hin : s.pc.toNat + n < s.params.memSize) :
    ∃ i, s.decodePhase = .ok i ∧ i.opcode = Memory.read s.mem s.pc.toNat ∧ wordsAtPc s (1 + n) = encode i := by
  have hfetch : ∀ k ≤ n, s.fetchWord k = .ok (Memory.read s.mem (s.pc.toNat + k)) := fun k hk =>
    (State.fetchWord_eq_ok_iff s k _).2 ⟨by omega, rfl⟩
  obtain ⟨i, hi⟩ := exists_decodeOp_eq_ok hn (.invalidOpcode _) fun k hk => ⟨_, hfetch (k + 1) hk⟩
  have hdec : s.decodePhase = .ok i := (State.decodePhase_eq_ok_iff s i).2 ⟨_, hfetch 0 (Nat.zero_le n), hi⟩
  have hop : Memory.read s.mem s.pc.toNat = i.opcode := ((decodeOp_eq_ok_iff _ _ _ _).1 hi).1
  have hlen : n = i.operands.length := by
    rw [hop, arityOf_opcode] at hn
    exact (Option.some.inj hn).symm
  refine ⟨i, hdec, hop.symm, ?_⟩
  rw [hlen, ← encode_length]
  exact State.wordsAtPc_of_decodePhase hdec

/-- Words placed at pc are the words at pc (20_memory.md R34). -/
theorem State.wordsAtPc_placeAtPc {s : State} (hwf : Memory.wf s.mem) {ws : List Word} {n : Nat}
    (hn : n ≤ ws.length) : wordsAtPc (s.placeAtPc ws) n = ws.take n := by
  refine List.ext_getElem (by simpa using hn) fun k hk _ => ?_
  rw [List.length_map, List.length_range] at hk
  rw [List.getElem_map, List.getElem_range, List.getElem_take]
  exact Memory.read_writeAll_inside _ _ _ _ hwf (hk.trans_le hn)

/-! ### The statements on the step -/

/-- Settles O6: the decode phase answers that instruction. -/
theorem stepRunsInstructionAtPc : Obligations.StepRunsInstructionAtPc :=
  fun i s hrun hin hwords => step_of_decodePhase_ok s i hrun (State.decodePhase_of_wordsAtPc hin hwords)

/-- Settles O7: each clause is one answer of the decode phase. -/
theorem decodePhaseFetchesAndFaultsInOrder : Obligations.DecodePhaseFetchesAndFaultsInOrder := by
  intro s hrun
  refine ⟨fun hpc => step_of_decodePhase_error s _ hrun (State.decodePhase_of_pc_outside hpc), ?_⟩
  rintro _ hpc rfl
  refine ⟨unknownOpcodeRaisesInvalidOpcode.2 s hrun hpc, fun n hn => ⟨fun hout => ?_, fun hin => ?_⟩⟩
  · exact step_of_decodePhase_error s _ hrun (State.decodePhase_of_operand_outside hpc hn hout)
  · obtain ⟨i, hdec, hop, hwords⟩ := State.decodePhase_of_words_inside hn hin
    refine ⟨i, hop, (decode_eq_ok_iff _ _ _).2 ?_, step_of_decodePhase_ok s i hrun hdec⟩
    rw [hwords, List.append_nil]

/-- Settles O8: a fault of the decode phase is a next state, and so is the end of every execution. -/
theorem stepIsTakenExactlyWhileRunning : Obligations.StepIsTakenExactlyWhileRunning := by
  refine fun s => ⟨fun hrun => ?_, step_of_not_running s⟩
  cases hdec : s.decodePhase with
  | ok i =>
    rw [step_of_decodePhase_ok s i hrun hdec]
    exact exec_next s i
  | error t => exact ⟨t, step_of_decodePhase_error s t hrun hdec⟩

/-- A step that ends faulted took the fault in its first state, in the decode phase or in the execution. -/
theorem step_faulted {s t : State} {r : FaultRecord} (hstep : step s = .next t) (hr : t.status = .faulted r) :
    ∃ op cause, t = s.takeFault op cause := by
  obtain ⟨hrun, ⟨i, -, hexec⟩ | hdec⟩ := (step_eq_next_iff s t).1 hstep
  · cases exec_ends i hexec with
    | kept h => simp [h, hrun] at hr
    | halted h => simp [h] at hr
    | faulted _ => exact ⟨_, _, rfl⟩
  · rcases (State.decodePhase_eq_error_iff s t).1 hdec with ⟨cause, -, rfl⟩ | ⟨op, cause, -, -, rfl⟩
    · exact ⟨none, cause, rfl⟩
    · exact ⟨some op, cause, rfl⟩

/-- Settles O9: taking a fault changes the status alone, and the record names pc. -/
theorem faultingStepWritesNothing : Obligations.FaultingStepWritesNothing := by
  intro s t r hstep hr
  obtain ⟨op, cause, rfl⟩ := step_faulted hstep hr
  cases hr
  exact ⟨rfl, rfl, rfl⟩

/-- Settles O52: the instruction's encoding heads the placed words, so it stands at pc, and all of it is in the memory
that placing them leaves. -/
theorem fetchWordStepRunsDecodedTableWord : Obligations.FetchWordStepRunsDecodedTableWord := by
  intro s nbits w i hwf hdec
  have hprefix : encode i <+: tableWords nbits w := (decodeTableWord_eq_some_iff nbits w i).1 hdec
  have hlen : (encode i).length ≤ (tableWords nbits w).length := hprefix.length_le
  refine stepRunsInstructionAtPc i (s.withFetchWord nbits w) rfl ?_ ?_
  · exact (Nat.add_le_add_left hlen _).trans (Nat.le_max_right _ _)
  · exact (State.wordsAtPc_placeAtPc hwf hlen).trans (List.prefix_iff_eq_take.1 hprefix).symm

end Sys2Proof.Machine

/-! ## Set, Push, Pop

Each clause is one case of the instruction's own law (`execSet_eq_next_iff`, `execPush_eq_next_iff`,
`execPop_eq_next_iff`), its operands restated in the statements' terms (41_set_stack.md R90, R91, R92). -/

namespace Sys2Proof.Machine

open Sys2Proof.Spec

/-! ### Register writes and operand faults in the statements' terms -/

/-- Past its own words, a register write changes that register alone, which holds the number modulo 32768
(40_step_and_operands.md R76). -/
theorem State.writesOnly_writeReg (s : State) (words : Nat) (i : RegIdx) (n : Nat) :
    WritesOnly s words i (n % 32768) ((s.advance words).writeReg i n) :=
  ⟨rfl, State.writeReg_get_same _ i n, fun j hj => State.writeReg_get_ne _ i j n hj⟩

/-- A 15-bit value is written whole. -/
theorem State.writesOnly_writeReg_val (s : State) (words : Nat) (i : RegIdx) (v : Val) :
    WritesOnly s words i v.toNat ((s.advance words).writeReg i v.toNat) := by
  simpa only [Nat.mod_eq_of_lt v.isLt] using s.writesOnly_writeReg words i v.toNat

theorem dst_of_namesReg {w : Word} {i : RegIdx} (h : NamesReg w i) : dst w = .ok i := (dst_eq_ok_iff w i).2 h

theorem dst_of_namesNone {w : Word} (h : NamesNone w) : dst w = .error (.invalidRegister w) :=
  (dst_eq_error_iff w _).2 ⟨h, rfl⟩

theorem source_of_invalidSource {w : Word} (h : InvalidSource w) (s : State) (pos : OperandPos) :
    source s pos w = .error (.invalidOperand w pos) :=
  (source_eq_error_iff s pos w _).2 ⟨h, rfl⟩

/-! ### The statements on Set, Push and Pop -/

/-- Settles O18: a source's value has 15 bits, so the register holds it whole; the destination is checked first. -/
theorem setCopiesSourceToDestination : Obligations.SetCopiesSourceToDestination := by
  refine fun a b s => ⟨rfl, fun i v ha hb => ?completes, fun ha => ?badDestination, fun i ha hb => ?badSource⟩
  case completes =>
    obtain ⟨vb, hvb, rfl⟩ := (readsAs_iff_source s .b b v).1 hb
    exact ⟨_, (execSet_eq_next_iff a b s _).2 (.inl ⟨i, vb, dst_of_namesReg ha, hvb, rfl⟩),
      s.writesOnly_writeReg_val 3 i vb⟩
  case badDestination =>
    exact (execSet_eq_next_iff a b s _).2 (.inr ⟨_, rfl, .inl (dst_of_namesNone ha)⟩)
  case badSource =>
    exact (execSet_eq_next_iff a b s _).2
      (.inr ⟨_, rfl, .inr ⟨⟨i, dst_of_namesReg ha⟩, source_of_invalidSource hb s .b⟩⟩)

/-- Settles O19: the advance of pc leaves the stack and its depth, so there is room exactly when there was before. -/
theorem pushPushesResolvedValue : Obligations.PushPushesResolvedValue := by
  refine fun a s => ⟨rfl, fun v ha hroom => ?completes, fun ha => ?badSource, fun v ha hfull => ?overflow⟩
  case completes =>
    obtain ⟨va, hva, rfl⟩ := (readsAs_iff_source s .a a v).1 ha
    exact (execPush_eq_next_iff a s _).2 (.inl ⟨va, hva, (State.push_eq_ok_iff _ _ _).2 ⟨hroom, rfl⟩⟩)
  case badSource =>
    exact (execPush_eq_next_iff a s _).2 (.inr ⟨_, rfl, .inl (source_of_invalidSource ha s .a)⟩)
  case overflow =>
    obtain ⟨va, hva, rfl⟩ := (readsAs_iff_source s .a a v).1 ha
    exact (execPush_eq_next_iff a s _).2
      (.inr ⟨_, rfl, .inr ⟨va, hva, (State.push_eq_error_iff _ _ _).2 ⟨not_not.1 hfull, rfl⟩⟩⟩)

/-- Settles O20: the register write reduces the popped word modulo 32768; the destination is checked before the
stack. -/
theorem popWritesTopModulo32768 : Obligations.PopWritesTopModulo32768 := by
  refine fun a s =>
    ⟨rfl, fun i w rest ha hstack => ?completes, fun ha => ?badDestination, fun i ha hempty => ?underflow⟩
  case completes =>
    have hpop : (s.advance 2).pop = some (w, { s with stack := rest }.advance 2) :=
      (State.pop_eq_some_iff _ _ _).2 ⟨rest, hstack, rfl⟩
    exact ⟨_, (execPop_eq_next_iff a s _).2 (.inl ⟨i, w, _, dst_of_namesReg ha, hpop, rfl⟩),
      State.writesOnly_writeReg _ 2 i w.toNat⟩
  case badDestination =>
    exact (execPop_eq_next_iff a s _).2 (.inr ⟨_, rfl, .inl (dst_of_namesNone ha)⟩)
  case underflow =>
    exact (execPop_eq_next_iff a s _).2 (.inr ⟨_, rfl, .inr ⟨⟨i, dst_of_namesReg ha⟩, hempty, rfl⟩⟩)

end Sys2Proof.Machine

/-! ## Eq, Gt

The clauses of a three-operand instruction are the cases of `binary_eq_next_iff`, its operands restated in the
statements' terms; Eq and Gt add only what they write, 1 or 0 (42_compare.md R100, R101). -/

namespace Sys2Proof.Machine

open Sys2Proof.Spec

/-! ### The rule of the three-operand instructions -/

/-- An instruction executed as `binary` has the rule of the three-operand instructions, for the result that its register
write leaves: the one reduced modulo 32768 (40_step_and_operands.md R76, R77). -/
theorem binaryRule_of_exec_eq_binary {op : Word} {mk : Word → Word → Word → Instr} {g : Val → Val → Nat}
    {f : Nat → Nat → Nat} (hencode : ∀ a b c, encode (mk a b c) = [op, a, b, c])
    (hexec : ∀ a b c s, exec (mk a b c) s = binary op g a b c s)
    (hresult : ∀ vb vc, g vb vc % 32768 = f vb.toNat vc.toNat) : BinaryRule op mk f := by
  intro a b c s
  rw [hexec]
  refine ⟨hencode a b c, fun i vb vc ha hb hc => ?completes, fun ha => ?badDestination, fun i ha hb => ?badFirst,
    fun i vb ha hb hc => ?badSecond⟩
  case completes =>
    obtain ⟨b', hb', rfl⟩ := (readsAs_iff_source s .b b vb).1 hb
    obtain ⟨c', hc', rfl⟩ := (readsAs_iff_source s .c c vc).1 hc
    refine ⟨_, (binary_eq_next_iff op g a b c s _).2 (.inl ⟨i, b', c', dst_of_namesReg ha, hb', hc', rfl⟩), ?_⟩
    rw [← hresult]
    exact s.writesOnly_writeReg 4 i (g b' c')
  case badDestination =>
    exact (binary_eq_next_iff op g a b c s _).2 (.inr ⟨_, rfl, .inl (dst_of_namesNone ha)⟩)
  case badFirst =>
    exact (binary_eq_next_iff op g a b c s _).2
      (.inr ⟨_, rfl, .inr ⟨⟨i, dst_of_namesReg ha⟩, .inl (source_of_invalidSource hb s .b)⟩⟩)
  case badSecond =>
    obtain ⟨b', hb', -⟩ := (readsAs_iff_source s .b b vb).1 hb
    exact (binary_eq_next_iff op g a b c s _).2
      (.inr ⟨_, rfl, .inr ⟨⟨i, dst_of_namesReg ha⟩, .inr ⟨⟨b', hb'⟩, source_of_invalidSource hc s .c⟩⟩⟩)

/-! ### The statements on Eq and Gt -/

/-- The outcome of a comparison fits a register. -/
theorem comparison_mod (p : Prop) [Decidable p] : (if p then 1 else 0) % 32768 = if p then 1 else 0 := by
  split
  · rfl
  · rfl

/-- Settles O21: Eq is the three-operand instruction whose result tells whether the resolved values are equal. -/
theorem eqWritesOneExactlyWhenEqual : Obligations.EqWritesOneExactlyWhenEqual :=
  binaryRule_of_exec_eq_binary (g := eqResult) (fun _ _ _ => rfl) (fun _ _ _ _ => rfl)
    fun vb vc => comparison_mod (vb.toNat = vc.toNat)

/-- Settles O22: Gt is the three-operand instruction whose result tells whether the first resolved value is greater. -/
theorem gtWritesOneExactlyWhenGreater : Obligations.GtWritesOneExactlyWhenGreater :=
  binaryRule_of_exec_eq_binary (g := gtResult) (fun _ _ _ => rfl) (fun _ _ _ _ => rfl)
    fun vb vc => comparison_mod (vc.toNat < vb.toNat)

end Sys2Proof.Machine

/-! ## Jmp, Jt, Jf

The clauses of Jmp and of the conditional jumps are the cases of `execJmp_eq_next_iff` and `jumpIf_eq_next_iff`, their
operands restated in the statements' terms; Jt and Jf add only which condition takes the jump (43_jumps.md R105, R106,
R107). A target outside memory is met by the next step's decode phase (R108). -/

namespace Sys2Proof.Machine

open Sys2Proof.Spec

/-! ### The rule of the conditional jumps -/

/-- An instruction executed as `jumpIf` has the rule of the conditional jumps, for the condition values on which it
jumps. -/
theorem conditionalJumpRule_of_exec_eq_jumpIf {op : Word} {mk : Word → Word → Instr} {taken : Bool}
    {takenAt : Nat → Prop} (hencode : ∀ a b, encode (mk a b) = [op, a, b])
    (hexec : ∀ a b s, exec (mk a b) s = jumpIf op taken a b s)
    (htaken : ∀ v, condition v = taken ↔ takenAt v.toNat) : ConditionalJumpRule op mk takenAt := by
  intro a b s
  rw [hexec]
  refine ⟨hencode a b, fun cond t ha hcond hb => ?jumps, fun cond ha hcond => ?falls, fun ha => ?badCondition,
    fun cond ha hcond hb => ?badTarget⟩
  case jumps =>
    obtain ⟨v, hv, rfl⟩ := (readsAs_iff_source s .a a cond).1 ha
    obtain ⟨target, htarget, rfl⟩ := (readsAs_iff_source s .b b t).1 hb
    exact (jumpIf_eq_next_iff op taken a b s _).2 (.inl ⟨v, target, hv, (htaken v).2 hcond, htarget, rfl⟩)
  case falls =>
    obtain ⟨v, hv, rfl⟩ := (readsAs_iff_source s .a a cond).1 ha
    exact (jumpIf_eq_next_iff op taken a b s _).2 (.inr (.inl ⟨v, hv, mt (htaken v).1 hcond, rfl⟩))
  case badCondition =>
    exact (jumpIf_eq_next_iff op taken a b s _).2 (.inr (.inr ⟨_, rfl, .inl (source_of_invalidSource ha s .a)⟩))
  case badTarget =>
    obtain ⟨v, hv, rfl⟩ := (readsAs_iff_source s .a a cond).1 ha
    exact (jumpIf_eq_next_iff op taken a b s _).2
      (.inr (.inr ⟨_, rfl, .inr ⟨⟨v, hv, (htaken v).2 hcond⟩, source_of_invalidSource hb s .b⟩⟩))

theorem condition_eq_true_iff (v : Val) : condition v = true ↔ v.toNat ≠ 0 := bne_iff_ne

theorem condition_eq_false_iff (v : Val) : condition v = false ↔ v.toNat = 0 := bne_eq_false_iff_eq

/-! ### The statements on Jmp, Jt and Jf -/

/-- Settles O23: the jump overwrites the advanced pc, so that the target alone is left of it. -/
theorem jmpGoesToResolvedTarget : Obligations.JmpGoesToResolvedTarget := by
  refine fun a s => ⟨rfl, fun t ha => ?jumps, fun ha => ?badTarget⟩
  case jumps =>
    obtain ⟨v, hv, rfl⟩ := (readsAs_iff_source s .a a t).1 ha
    exact (execJmp_eq_next_iff a s _).2 (.inl ⟨v, hv, rfl⟩)
  case badTarget =>
    exact (execJmp_eq_next_iff a s _).2 (.inr ⟨_, rfl, source_of_invalidSource ha s .a⟩)

/-- Settles O24: Jt is the conditional jump taken when the condition is true, that is, not zero. -/
theorem jtJumpsWhenConditionNotZero : Obligations.JtJumpsWhenConditionNotZero :=
  conditionalJumpRule_of_exec_eq_jumpIf (fun _ _ => rfl) (fun _ _ _ => rfl) condition_eq_true_iff

/-- Settles O25: Jf is the conditional jump taken when the condition is false, that is, zero. -/
theorem jfJumpsWhenConditionZero : Obligations.JfJumpsWhenConditionZero :=
  conditionalJumpRule_of_exec_eq_jumpIf (fun _ _ => rfl) (fun _ _ _ => rfl) condition_eq_false_iff

/-- Settles O26: the jump leaves the machine running and its memory size as it was, so the opcode fetch at the target,
a number that a word holds whole, is out of bounds. -/
theorem jumpOutOfMemoryFaultsAtNextStep : Obligations.JumpOutOfMemoryFaultsAtNextStep := by
  intro a t s hrun ha hout
  obtain ⟨-, hjump, -⟩ := jmpGoesToResolvedTarget a s
  have hpc : (BitVec.ofNat 16 t).toNat = t := by
    have hle := readsAs_le ha
    rw [BitVec.toNat_ofNat]
    omega
  have hdec := State.decodePhase_of_pc_outside (s := { s with pc := BitVec.ofNat 16 t }) (hout.trans_eq hpc.symm)
  rw [hpc] at hdec
  exact ⟨_, hjump t ha, hrun, hpc, step_of_decodePhase_error _ _ hrun hdec⟩

end Sys2Proof.Machine

/-! ## Add, Mul, Mod, And, Or, Not

Add, Mul, And and Or are three-operand instructions of the shape `binary`, so each adds only what the register write
leaves of its exact result (44_alu.md R110, R111, R113, R114). The clauses of Mod and Not are the cases of their own
laws (`execMod_eq_next_iff`, `execNot_eq_next_iff`); a remainder and a complement fit a register (R112, R115). -/

namespace Sys2Proof.Machine

open Sys2Proof.Spec

/-! ### Results that fit a register -/

/-- A number below 32768 is written whole. -/
theorem State.writesOnly_writeReg_of_lt (s : State) (words : Nat) (i : RegIdx) {n : Nat} (h : n < 32768) :
    WritesOnly s words i n ((s.advance words).writeReg i n) := by
  simpa only [Nat.mod_eq_of_lt h] using s.writesOnly_writeReg words i n

/-- 44_alu.md R113: the operands have 15 bits, so the and has. -/
theorem andResult_lt (vb vc : Val) : andResult vb vc < 32768 := Nat.and_lt_two_pow _ vc.isLt

/-- 44_alu.md R114: the operands have 15 bits, so the or has. -/
theorem orResult_lt (vb vc : Val) : orResult vb vc < 32768 := Nat.or_lt_two_pow vb.isLt vc.isLt

theorem notResult_lt (v : Val) : notResult v < 32768 := Nat.lt_succ_of_le (Nat.sub_le 32767 v.toNat)

/-! ### The statements on Add, Mul, And and Or -/

/-- Settles O27: Add is the three-operand instruction with the exact sum, which the register write reduces. -/
theorem addWritesSumModulo32768 : Obligations.AddWritesSumModulo32768 :=
  binaryRule_of_exec_eq_binary (g := addResult) (fun _ _ _ => rfl) (fun _ _ _ _ => rfl) fun _ _ => rfl

/-- Settles O28: Mul is the three-operand instruction with the exact product, which the register write reduces. -/
theorem mulWritesProductModulo32768 : Obligations.MulWritesProductModulo32768 :=
  binaryRule_of_exec_eq_binary (g := mulResult) (fun _ _ _ => rfl) (fun _ _ _ _ => rfl) fun _ _ => rfl

/-- Settles O30: And is the three-operand instruction with the bitwise and, which a register holds whole. -/
theorem andWritesBitwiseAnd : Obligations.AndWritesBitwiseAnd :=
  binaryRule_of_exec_eq_binary (g := andResult) (fun _ _ _ => rfl) (fun _ _ _ _ => rfl)
    fun vb vc => Nat.mod_eq_of_lt (andResult_lt vb vc)

/-- Settles O31: Or is the three-operand instruction with the bitwise or, which a register holds whole. -/
theorem orWritesBitwiseOr : Obligations.OrWritesBitwiseOr :=
  binaryRule_of_exec_eq_binary (g := orResult) (fun _ _ _ => rfl) (fun _ _ _ _ => rfl)
    fun vb vc => Nat.mod_eq_of_lt (orResult_lt vb vc)

/-! ### The statement on Mod -/

/-- Settles O29: the remainder is at most the dividend, so the register holds it whole; the divisor is tested last, and
on its resolved value. -/
theorem modWritesRemainderOrDividesByZero : Obligations.ModWritesRemainderOrDividesByZero := by
  refine fun a b c s => ⟨rfl, fun i vb vc ha hb hc hne => ?completes, fun ha => ?badDestination,
    fun i ha hb => ?badDividend, fun i vb ha hb hc => ?badDivisor, fun i vb ha hb hc => ?zeroDivisor⟩
  case completes =>
    obtain ⟨b', hb', rfl⟩ := (readsAs_iff_source s .b b vb).1 hb
    obtain ⟨c', hc', rfl⟩ := (readsAs_iff_source s .c c vc).1 hc
    exact ⟨_, (execMod_eq_next_iff a b c s _).2 (.inl ⟨i, b', c', dst_of_namesReg ha, hb', hc', hne, rfl⟩),
      s.writesOnly_writeReg_of_lt 4 i ((Nat.mod_le _ _).trans_lt b'.isLt)⟩
  case badDestination =>
    exact (execMod_eq_next_iff a b c s _).2 (.inr ⟨_, rfl, .inl (dst_of_namesNone ha)⟩)
  case badDividend =>
    exact (execMod_eq_next_iff a b c s _).2
      (.inr ⟨_, rfl, .inr ⟨⟨i, dst_of_namesReg ha⟩, .inl (source_of_invalidSource hb s .b)⟩⟩)
  case badDivisor =>
    obtain ⟨b', hb', -⟩ := (readsAs_iff_source s .b b vb).1 hb
    exact (execMod_eq_next_iff a b c s _).2
      (.inr ⟨_, rfl, .inr ⟨⟨i, dst_of_namesReg ha⟩, .inr ⟨⟨b', hb'⟩, .inl (source_of_invalidSource hc s .c)⟩⟩⟩)
  case zeroDivisor =>
    obtain ⟨b', hb', -⟩ := (readsAs_iff_source s .b b vb).1 hb
    exact (execMod_eq_next_iff a b c s _).2
      (.inr ⟨_, rfl, .inr ⟨⟨i, dst_of_namesReg ha⟩,
        .inr ⟨⟨b', hb'⟩, .inr ⟨(readsAs_iff_source s .c c 0).1 hc, rfl⟩⟩⟩⟩)

/-! ### The statement on Not -/

/-- 44_alu.md R115, the case without a fault. -/
theorem exec_not_of_readsAs {s : State} {a b : Word} {i : RegIdx} {v : Nat} (ha : NamesReg a i) (hb : ReadsAs s b v) :
    ∃ t, exec (.not a b) s = .next t ∧ WritesOnly s 3 i (32767 - v) t := by
  obtain ⟨b', hb', rfl⟩ := (readsAs_iff_source s .b b v).1 hb
  exact ⟨_, (execNot_eq_next_iff a b s _).2 (.inl ⟨i, b', dst_of_namesReg ha, hb', rfl⟩),
    s.writesOnly_writeReg_of_lt 3 i (notResult_lt b')⟩

/-- Settles O32: a complement is itself a legal value, so the second Not reads what the first wrote and subtracts it
from 32767 again. -/
theorem notWritesFifteenBitComplement : Obligations.NotWritesFifteenBitComplement := by
  refine fun a b s => ⟨rfl, fun i v => exec_not_of_readsAs, fun ha => ?badDestination, fun i ha hb => ?badSource,
    fun c d i j v ha hb hd hc => ?selfInverse⟩
  case badDestination =>
    exact (execNot_eq_next_iff a b s _).2 (.inr ⟨_, rfl, .inl (dst_of_namesNone ha)⟩)
  case badSource =>
    exact (execNot_eq_next_iff a b s _).2
      (.inr ⟨_, rfl, .inr ⟨⟨i, dst_of_namesReg ha⟩, source_of_invalidSource hb s .b⟩⟩)
  case selfInverse =>
    obtain ⟨t, ht, -, hfirst, -⟩ := exec_not_of_readsAs ha hb
    have hreads : ReadsAs t d (32767 - v) := .inr ⟨i, hd, hfirst.symm⟩
    obtain ⟨u, hu, -, hsecond, -⟩ := exec_not_of_readsAs hc hreads
    exact ⟨t, u, ht, hu, hsecond.trans (Nat.sub_sub_self (readsAs_le hb))⟩

end Sys2Proof.Machine

/-! ## Rmem, Wmem

The clauses of Rmem and Wmem are the cases of their own laws (`execRmem_eq_next_iff`, `execWmem_eq_next_iff`); the cells
after a store are the read-after-write law and the frame of memory (45_memory_ops.md R120, R121). -/

namespace Sys2Proof.Machine

open Sys2Proof.Spec

/-! ### What a store writes -/

/-- A source's value is stored whole in a 16-bit cell (20_memory.md R35). -/
theorem toNat_ofNat_of_readsAs {s : State} {w : Word} {v : Nat} (h : ReadsAs s w v) :
    (BitVec.ofNat 16 v).toNat = v := by
  have hle := readsAs_le h
  rw [BitVec.toNat_ofNat]
  omega

/-! ### The statements on Rmem and Wmem -/

/-- Settles O33: the word goes from the cell to the register write, which reduces it; the address is checked last, and
on its resolved value. -/
theorem rmemWritesMemoryWordModulo32768 : Obligations.RmemWritesMemoryWordModulo32768 := by
  refine fun a b s => ⟨rfl, fun i addr ha hb haddr => ?completes, fun ha => ?badDestination,
    fun i ha hb => ?badAddress, fun i addr ha hb haddr => ?outside⟩
  case completes =>
    exact ⟨_, exec_rmem_of_readsAs ha hb haddr, s.writesOnly_writeReg 3 i _⟩
  case badDestination =>
    exact (execRmem_eq_next_iff a b s _).2 (.inr ⟨_, rfl, .inl (dst_of_namesNone ha)⟩)
  case badAddress =>
    exact (execRmem_eq_next_iff a b s _).2
      (.inr ⟨_, rfl, .inr ⟨⟨i, dst_of_namesReg ha⟩, .inl (source_of_invalidSource hb s .b)⟩⟩)
  case outside =>
    obtain ⟨b', hb', rfl⟩ := (readsAs_iff_source s .b b addr).1 hb
    exact (execRmem_eq_next_iff a b s _).2
      (.inr ⟨_, rfl, .inr ⟨⟨i, dst_of_namesReg ha⟩,
        .inr ⟨b', hb', (State.memRead_eq_error_iff _ _ _ _).2 ⟨haddr, rfl⟩⟩⟩⟩)

/-- Settles O34: the cell written reads as the stored value, which it holds whole, and the write leaves the others; the
bound is checked last, in a state that has only its pc advanced. -/
theorem wmemStoresValueAtAddressOnly : Obligations.WmemStoresValueAtAddressOnly := by
  refine fun a b s => ⟨rfl, fun addr v hwf ha hb haddr => ?completes, fun ha => ?badAddress,
    fun addr ha hb => ?badValue, fun addr v ha hb haddr => ?outside⟩
  case completes =>
    refine ⟨_, exec_wmem_of_readsAs ha hb haddr, rfl, ?_, fun other hne => Memory.read_write_ne _ _ _ _ hne⟩
    rw [Memory.read_write_same _ _ _ hwf, toNat_ofNat_of_readsAs hb]
  case badAddress =>
    exact (execWmem_eq_next_iff a b s _).2 (.inr ⟨_, rfl, .inl (source_of_invalidSource ha s .a)⟩)
  case badValue =>
    obtain ⟨a', ha', -⟩ := (readsAs_iff_source s .a a addr).1 ha
    exact (execWmem_eq_next_iff a b s _).2
      (.inr ⟨_, rfl, .inr ⟨a', ha', .inl (source_of_invalidSource hb s .b)⟩⟩)
  case outside =>
    obtain ⟨a', ha', rfl⟩ := (readsAs_iff_source s .a a addr).1 ha
    obtain ⟨b', hb', -⟩ := (readsAs_iff_source s .b b v).1 hb
    exact (execWmem_eq_next_iff a b s _).2
      (.inr ⟨_, rfl, .inr ⟨a', ha', .inr ⟨b', hb', (State.memWrite_eq_error_iff _ _ _ _).2 ⟨haddr, rfl⟩⟩⟩⟩)

end Sys2Proof.Machine

/-! ## Call, Ret

The clauses of Call and Ret are the cases of their own laws (`execCall_eq_next_iff`, `execRet_eq_next_iff`), the stack
operations read through `State.push_eq_ok_iff`, `State.push_eq_error_iff` and `State.pop_eq_some_iff` (46_call_ret.md
R125, R126). -/

namespace Sys2Proof.Machine

open Sys2Proof.Spec

/-- Settles O38: the pushed word is the advanced pc, and the jump overwrites that pc; the target is resolved before the
push. -/
theorem callPushesReturnAddressAndJumps : Obligations.CallPushesReturnAddressAndJumps := by
  refine fun a s => ⟨rfl, fun t ha hroom => ?completes, fun ha => ?badTarget, fun t ha hfull => ?overflow⟩
  case completes =>
    obtain ⟨v, hv, rfl⟩ := (readsAs_iff_source s .a a t).1 ha
    exact (execCall_eq_next_iff a s _).2 (.inl ⟨v, _, hv, (State.push_eq_ok_iff _ _ _).2 ⟨hroom, rfl⟩, rfl⟩)
  case badTarget =>
    exact (execCall_eq_next_iff a s _).2 (.inr ⟨_, rfl, .inl (source_of_invalidSource ha s .a)⟩)
  case overflow =>
    obtain ⟨v, hv, -⟩ := (readsAs_iff_source s .a a t).1 ha
    exact (execCall_eq_next_iff a s _).2
      (.inr ⟨_, rfl, .inr ⟨⟨v, hv⟩, (State.push_eq_error_iff _ _ _).2 ⟨not_not.1 hfull, rfl⟩⟩⟩)

/-- 46_call_ret.md R126, the case of a non-empty stack. -/
theorem exec_ret_of_stack_eq_cons {s : State} {w : Word} {rest : List Word} (h : s.stack = w :: rest) :
    exec .ret s = .next { s with pc := w, stack := rest } :=
  (execRet_eq_next_iff s _).2 (.inl ⟨w, _, (State.pop_eq_some_iff _ _ _).2 ⟨rest, h, rfl⟩, rfl⟩)

/-- Settles O39: a Call leaves its return address on top of the former stack, and Ret reads nothing but the stack. -/
theorem retPopsTargetOrHalts : Obligations.RetPopsTargetOrHalts := by
  refine fun s => ⟨rfl, fun w rest => exec_ret_of_stack_eq_cons, fun hempty => ?halts,
    fun a target ha hroom => ?returns⟩
  case halts =>
    exact (execRet_eq_next_iff s _).2 (.inr ⟨hempty, rfl⟩)
  case returns =>
    obtain ⟨-, hcall, -⟩ := callPushesReturnAddressAndJumps a s
    exact ⟨_, hcall target ha hroom, fun u hu => ⟨_, exec_ret_of_stack_eq_cons hu, rfl, rfl⟩⟩

end Sys2Proof.Machine

/-! ## Out, In

The clauses of Out and In are the cases of their own laws (`execOut_eq_next_iff`, `execIn_eq_next_iff`); what the input
channel delivers is read through the laws of `State.nextInput` (47_io.md R131, R134). In is the only instruction that
touches the input (`exec_frame`), so the order of input over a step is that of `State.nextInput` (R135). -/

namespace Sys2Proof.Machine

open Sys2Proof.Spec

/-! ### Bytes -/

/-- A byte fits a register. -/
theorem Byte.toNat_lt_modulus (b : Byte) : b.toNat < 32768 := b.isLt.trans (by decide)

/-- The emitted byte is the value's low eight bits, whether or not it is reduced first. -/
theorem Byte.ofNat_mod (n : Nat) : BitVec.ofNat 8 (n % 256) = BitVec.ofNat 8 n :=
  BitVec.eq_of_toNat_eq (by rw [BitVec.toNat_ofNat, BitVec.toNat_ofNat, Nat.mod_mod])

/-! ### The statements on Out and In -/

/-- Settles O40: Out resolves its operand and emits one byte. -/
theorem outEmitsLowByte : Obligations.OutEmitsLowByte := by
  refine fun a s => ⟨rfl, fun v ha => ?emits, fun ha => ?badSource⟩
  case emits =>
    obtain ⟨va, hva, rfl⟩ := (readsAs_iff_source s .a a v).1 ha
    rw [Byte.ofNat_mod]
    exact (execOut_eq_next_iff a s _).2 (.inl ⟨va, hva, rfl⟩)
  case badSource =>
    exact (execOut_eq_next_iff a s _).2 (.inr ⟨_, rfl, source_of_invalidSource ha s .a⟩)

/-- 47_io.md R134, the case of a delivered byte: `u` is the state in which the byte has been taken. -/
theorem exec_inp_of_byte {s u : State} {a : Word} {i : RegIdx} {b : Byte} (ha : NamesReg a i)
    (hnext : (s.advance 2).nextInput = .byte b (u.advance 2)) :
    ∃ t, exec (.inp a) s = .next t ∧ WritesOnly u 2 i b.toNat t :=
  ⟨_, (execIn_eq_next_iff a s _).2 (.inl ⟨i, b, _, dst_of_namesReg ha, hnext, rfl⟩),
    u.writesOnly_writeReg_of_lt 2 i (Byte.toNat_lt_modulus b)⟩

/-- Settles O41: the destination is checked before the input is asked for, and each answer of the input channel is one
clause. -/
theorem inDeliversNextInputByte : Obligations.InDeliversNextInputByte := by
  refine fun a s => ⟨rfl, fun i b rest ha hbuf => ?fromBuffer, fun i b rest more ha hbuf hans => ?fromAnswer,
    fun i more ha hbuf hans => ?endOfStream, fun ha => ?badDestination, fun i ha hbuf hans => ?waits⟩
  case fromBuffer =>
    exact exec_inp_of_byte (u := { s with inbuf := rest }) ha
      ((State.nextInput_eq_byte_iff _ _ _).2 (.inl ⟨rest, hbuf, rfl⟩))
  case fromAnswer =>
    exact exec_inp_of_byte (u := { s with inbuf := rest, answers := more }) ha
      ((State.nextInput_eq_byte_iff _ _ _).2 (.inr ⟨rest, more, hbuf, hans, rfl⟩))
  case endOfStream =>
    have hnext := (State.nextInput_eq_endOfStream_iff (s.advance 2) _).2 ⟨more, hbuf, hans, rfl⟩
    exact (execIn_eq_next_iff a s _).2 (.inr (.inl ⟨i, _, dst_of_namesReg ha, hnext, rfl⟩))
  case badDestination =>
    exact (execIn_eq_next_iff a s _).2 (.inr (.inr (.inr ⟨_, rfl, dst_of_namesNone ha⟩)))
  case waits =>
    have hnext := (State.nextInput_eq_waiting_iff (s.advance 2)).2 ⟨hbuf, hans⟩
    exact (execIn_eq_next_iff a s _).2 (.inr (.inr (.inl ⟨i, dst_of_namesReg ha, hnext, rfl⟩)))

/-! ### The order of input -/

/-- A delivered byte is the first of those still to come, and the rest stay to come. -/
theorem State.inputStream_of_nextInput_byte {s u : State} {b : Byte} (h : s.nextInput = .byte b u) :
    inputStream s = b :: inputStream u := by
  rcases (State.nextInput_eq_byte_iff s u b).1 h with ⟨rest, hbuf, rfl⟩ | ⟨rest, more, hbuf, hans, rfl⟩
  · simp [inputStream, hbuf]
  · simp [inputStream, hbuf, hans]

/-- An end of stream takes no byte. -/
theorem State.inputStream_of_nextInput_endOfStream {s u : State} (h : s.nextInput = .endOfStream u) :
    inputStream u = inputStream s := by
  obtain ⟨more, hbuf, hans, rfl⟩ := (State.nextInput_eq_endOfStream_iff s u).1 h
  simp [inputStream, hbuf, hans]

/-- What an In does to the bytes still to come. -/
theorem execIn_inputStream {s t : State} {a : Word} (h : execIn a s = .next t) :
    inputStream t = inputStream s ∨
      ∃ (i : RegIdx) (b : Byte), NamesReg a i ∧ inputStream s = b :: inputStream t ∧ (t.regs.get i).toNat = b.toNat := by
  rcases (execIn_eq_next_iff a s t).1 h with
    ⟨i, b, u, hi, hu, rfl⟩ | ⟨_, u, -, hu, rfl⟩ | ⟨_, -, -, rfl⟩ | ⟨_, rfl, -⟩
  · have hstream : inputStream (s.advance 2) = b :: inputStream u := State.inputStream_of_nextInput_byte hu
    refine .inr ⟨i, b, (dst_eq_ok_iff a i).1 hi, hstream, ?_⟩
    rw [State.writeReg_get_same, Nat.mod_eq_of_lt (Byte.toNat_lt_modulus b)]
  · have hstream : inputStream u = inputStream (s.advance 2) := State.inputStream_of_nextInput_endOfStream hu
    exact .inl hstream
  · exact .inl rfl
  · exact .inl rfl

/-- Word number `k` of the instruction that the decode phase answers stands `k` words past pc. -/
theorem State.read_of_decodePhase {s : State} {i : Instr} (h : s.decodePhase = .ok i) {k : Nat}
    (hk : k < (encode i).length) : Memory.read s.mem (s.pc.toNat + k) = (encode i)[k] := by
  simpa using (List.getElem_of_eq (State.wordsAtPc_of_decodePhase h).symm hk).symm

/-- A failed decode phase takes a fault and does nothing else. -/
theorem State.exists_takeFault_of_decodePhase_error {s t : State} (h : s.decodePhase = .error t) :
    ∃ op cause, t = s.takeFault op cause := by
  rcases (State.decodePhase_eq_error_iff s t).1 h with ⟨cause, -, rfl⟩ | ⟨op, cause, -, -, rfl⟩
  · exact ⟨none, cause, rfl⟩
  · exact ⟨some op, cause, rfl⟩

/-- Settles O42: by the frame only an In touches the input, and the decode phase touches nothing. -/
theorem inputDeliveredInOrder : Obligations.InputDeliveredInOrder := by
  intro s t hstep
  obtain ⟨-, ⟨i, hdec, hexec⟩ | hdec⟩ := (step_eq_next_iff s t).1 hstep
  · rcases (exec_frame i hexec).input with ⟨hbuf, hans⟩ | ⟨a, rfl⟩
    · exact .inl (by rw [inputStream, hbuf, hans])
    · refine (execIn_inputStream hexec).imp_right fun ⟨i, b, ha, hstream, hreg⟩ => ?_
      have hop := State.read_of_decodePhase hdec (k := 0) (Nat.succ_pos _)
      have hoperand := State.read_of_decodePhase hdec (k := 1) Nat.one_lt_two
      exact ⟨a, i, b, hop, hoperand, ha, hstream, hreg⟩
  · obtain ⟨_, _, rfl⟩ := State.exists_takeFault_of_decodePhase_error hdec
    exact .inl rfl

/-! ### The wait -/

/-- A waiting machine stands at an In that could go on but for the missing line (47_io.md R136). -/
theorem State.exists_inp_of_waitingForLine {s : State} (h : s.waitingForLine = true) :
    s.status = .running ∧ s.inbuf = [] ∧ s.answers = [] ∧ ∃ a i, s.decodePhase = .ok (.inp a) ∧ NamesReg a i := by
  simp only [State.waitingForLine, Bool.and_eq_true, State.isRunning_iff, List.isEmpty_iff] at h
  obtain ⟨⟨⟨hrun, hbuf⟩, hans⟩, hinp⟩ := h
  refine ⟨hrun, hbuf, hans, ?_⟩
  split at hinp
  · next a hdec =>
    split at hinp
    · next i hi => exact ⟨a, i, hdec, (dst_eq_ok_iff a i).1 hi⟩
    · cases hinp
  · cases hinp

/-- The decode phase does not see the host's answers. -/
theorem State.decodePhase_answers {s : State} {i : Instr} (h : s.decodePhase = .ok i) (answers : List (List Byte)) :
    { s with answers := answers }.decodePhase = .ok i :=
  (State.decodePhase_eq_ok_iff _ i).2 ((State.decodePhase_eq_ok_iff s i).1 h)

theorem State.answerLine_of_waiting {s : State} (h : s.waitingForLine = true) (line : List Byte) :
    s.answerLine line = some { s with answers := [line] } :=
  if_pos h

/-- Settles O43: the answer leaves the same In to be decoded, and its execution is the clause of
`inDeliversNextInputByte` that fits the line. -/
theorem waitEndsOnlyByAnswer : Obligations.WaitEndsOnlyByAnswer := by
  intro s hwait
  obtain ⟨hrun, hbuf, hans, a, i, hdec, ha⟩ := State.exists_inp_of_waitingForLine hwait
  constructor
  · obtain ⟨-, -, -, -, -, hwaits⟩ := inDeliversNextInputByte a s
    exact (step_of_decodePhase_ok s _ hrun hdec).trans (hwaits i ha hbuf hans)
  · intro line
    have hstep : step { s with answers := [line] } = exec (.inp a) { s with answers := [line] } :=
      step_of_decodePhase_ok _ _ hrun (State.decodePhase_answers hdec _)
    obtain ⟨-, -, hbyte, hend, -⟩ := inDeliversNextInputByte a { s with answers := [line] }
    cases line with
    | nil =>
      exact ⟨_, _, State.answerLine_of_waiting hwait _, hstep.trans (hend i [] ha hbuf rfl), fun _ => rfl, nofun⟩
    | cons b rest =>
      obtain ⟨t, hexec, hwrites, -⟩ := hbyte i b rest [] ha hbuf rfl
      refine ⟨_, t, State.answerLine_of_waiting hwait _, hstep.trans hexec, nofun, ?_⟩
      rintro _ _ ⟨⟩
      rw [hwrites]
      exact ⟨hrun, rfl, rfl⟩

end Sys2Proof.Machine

/-! ## Hlt, Noop, and the graceful halts

Hlt and Noop are one word long, so the opcode word at pc alone makes their step (48_halt_noop.md R140, R141). Only Hlt,
Ret and In can halt: every other instruction's checks end in a state with the status it began with (60_exceptions.md
R160). -/

namespace Sys2Proof.Machine

/-! ### Hlt and Noop as whole steps -/

/-- An instruction without operands is run as soon as its opcode stands at pc. -/
theorem step_of_opcode_at_pc {i : Instr} {s : State} (hoperands : i.operands = []) (hrun : s.status = .running)
    (hpc : s.pc.toNat < s.params.memSize) (hop : Memory.read s.mem s.pc.toNat = i.opcode) : step s = exec i s := by
  have hencode : encode i = [i.opcode] := by rw [encode, hoperands]
  refine stepRunsInstructionAtPc i s hrun ?_ ?_
  · rw [hencode]
    exact hpc
  · simp [hencode, hop]

theorem exec_hlt (s : State) : exec .hlt s = .next { s with pc := s.pc + 1, status := .halted .hltInstruction } := rfl

theorem exec_noop (s : State) : exec .noop s = .next { s with pc := s.pc + 1 } := rfl

/-- Settles O44: the status that Hlt leaves lets no step follow. -/
theorem hltHaltsTheMachine : Obligations.HltHaltsTheMachine := by
  refine ⟨rfl, exec_hlt, fun s hrun hpc hop => ⟨_, ?_, rfl, step_of_not_running _ nofun⟩⟩
  rw [step_of_opcode_at_pc (i := .hlt) rfl hrun hpc hop, exec_hlt]

/-- Settles O45: the opcode word is the whole instruction, and its execution only advances pc. -/
theorem noopOnlyAdvancesPc : Obligations.NoopOnlyAdvancesPc := by
  refine ⟨rfl, exec_noop, fun s hrun hpc hop => ?_⟩
  rw [step_of_opcode_at_pc (i := .noop) rfl hrun hpc hop, exec_noop]

/-! ### The instructions that can halt -/

/-- Whenever the check sequence `r` passes, it ends in a state with the status of `s`. -/
def KeepsStatus (s : State) (r : Check State) : Prop := ∀ t, r = .ok t → t.status = s.status

section KeepsStatus

variable {s t : State}

theorem KeepsStatus.ok (h : t.status = s.status) : KeepsStatus s (.ok t) := by
  rintro _ ⟨⟩
  exact h

theorem KeepsStatus.error (cause : FaultCause) : KeepsStatus s (.error cause) := nofun

/-- The last part of a check sequence gives the state. -/
theorem KeepsStatus.bind {α : Type} {x : Check α} {f : α → Check State} (h : ∀ a, x = .ok a → KeepsStatus s (f a)) :
    KeepsStatus s (x >>= f) := by
  intro t ht
  obtain ⟨a, hx, hf⟩ := (bind_eq_ok_iff x f t).1 ht
  exact h a hx t hf

theorem KeepsStatus.memWrite (addr : Nat) (v : Word) : KeepsStatus s (s.memWrite addr v) := by
  intro t ht
  obtain ⟨-, rfl⟩ := (State.memWrite_eq_ok_iff s t addr v).1 ht
  rfl

end KeepsStatus

/-- The three instructions that can halt the machine (60_exceptions.md R160). -/
def CanHalt (i : Instr) : Prop := i = .hlt ∨ i = .ret ∨ ∃ a, i = .inp a

/-- Every other instruction is a check sequence that keeps the status: it ends in a register write, a jump, or an
operation on stack, memory or output. -/
theorem exec_eq_finish_of_not_canHalt {i : Instr} (hi : ¬ CanHalt i) (s : State) :
    ∃ op r, exec i s = s.finish op r ∧ KeepsStatus s r := by
  cases i with
  | hlt => exact absurd (.inl rfl) hi
  | ret => exact absurd (.inr (.inl rfl)) hi
  | inp a => exact absurd (.inr (.inr ⟨a, rfl⟩)) hi
  | noop => exact ⟨21, .ok (s.advance 1), rfl, .ok rfl⟩
  | jmp | out => exact ⟨_, _, rfl, .bind fun _ _ => .ok rfl⟩
  | set | not => exact ⟨_, _, rfl, .bind fun _ _ => .bind fun _ _ => .ok rfl⟩
  | eq | gt | add | mul | and | or | rmem =>
    exact ⟨_, _, rfl, .bind fun _ _ => .bind fun _ _ => .bind fun _ _ => .ok rfl⟩
  | mod => exact ⟨_, _, rfl, .bind fun _ _ => .bind fun _ _ => .bind fun _ _ => .bind fun _ _ => .ok rfl⟩
  | push => exact ⟨_, _, rfl, .bind fun _ _ _ hp => (State.push_status hp).trans rfl⟩
  | call => exact ⟨_, _, rfl, .bind fun _ _ => .bind fun _ hp => .ok ((State.push_status hp).trans rfl)⟩
  | wmem => exact ⟨_, _, rfl, .bind fun _ _ => .bind fun _ _ => .memWrite (s := s.advance 3) _ _⟩
  | pop =>
    refine ⟨_, _, rfl, .bind fun _ _ => ?_⟩
    split
    · exact .error _
    · next hp => exact .ok ((State.pop_status hp).trans rfl)
  | jt | jf =>
    refine ⟨_, _, rfl, .bind fun _ _ => ?_⟩
    split
    · exact .bind fun _ _ => .ok rfl
    · exact .ok rfl

/-- The execution of a running machine halts only by a Hlt, a Ret or an In. -/
theorem canHalt_of_exec_halted {i : Instr} {s t : State} {reason : HaltReason} (hexec : exec i s = .next t)
    (hrun : s.status = .running) (ht : t.status = .halted reason) : CanHalt i := by
  by_contra hi
  obtain ⟨op, r, heq, hkeeps⟩ := exec_eq_finish_of_not_canHalt hi s
  rcases (State.finish_eq_next_iff s t op r).1 (heq.symm.trans hexec) with hok | ⟨_, -, rfl⟩
  · simp [hkeeps t hok, hrun] at ht
  · cases ht

/-! ### The statement on the graceful halts -/

/-- Ret halts only on an empty stack. -/
theorem execRet_halted {s t : State} {reason : HaltReason} (hexec : execRet s = .next t) (hrun : s.status = .running)
    (ht : t.status = .halted reason) : s.stack = [] ∧ t = (s.advance 1).halt .retEmptyStack := by
  rcases (execRet_eq_next_iff s t).1 hexec with ⟨_, _, hp, rfl⟩ | hhalt
  · simp [State.pop_status hp, hrun] at ht
  · exact hhalt

/-- In halts only when the host answers its line request with end of stream. -/
theorem execIn_halted {s t : State} {a : Word} {reason : HaltReason} (hexec : execIn a s = .next t)
    (hrun : s.status = .running) (ht : t.status = .halted reason) :
    ∃ more, s.inbuf = [] ∧ s.answers = [] :: more ∧
      t = { s.advance 2 with answers := more, status := .halted .inputExhausted } := by
  rcases (execIn_eq_next_iff a s t).1 hexec with
    ⟨_, _, u, -, hu, rfl⟩ | ⟨_, u, -, hu, rfl⟩ | ⟨_, -, -, rfl⟩ | ⟨_, rfl, -⟩
  · have hu' : u.status = .running := by
      rcases (State.nextInput_eq_byte_iff _ _ _).1 hu with ⟨_, -, rfl⟩ | ⟨_, _, -, -, rfl⟩
      · exact hrun
      · exact hrun
    simp [hu'] at ht
  · obtain ⟨more, hbuf, hans, rfl⟩ := (State.nextInput_eq_endOfStream_iff _ _).1 hu
    exact ⟨more, hbuf, hans, rfl⟩
  · simp [hrun] at ht
  · cases ht

/-- Settles O10: the decode phase can only fault, and of the three instructions that can halt each has one case in which
it does. -/
theorem gracefulHaltHasThreeCauses : Obligations.GracefulHaltHasThreeCauses := by
  refine ⟨fun s t reason hstep ht => ?_, rfl, rfl, rfl⟩
  obtain ⟨hrun, ⟨i, hdec, hexec⟩ | hdec⟩ := (step_eq_next_iff s t).1 hstep
  · have hop : Memory.read s.mem s.pc.toNat = i.opcode := State.read_of_decodePhase hdec (Nat.succ_pos _)
    rcases canHalt_of_exec_halted hexec hrun ht with rfl | rfl | ⟨a, rfl⟩
    · cases hexec
      cases ht
      exact .inl ⟨rfl, hop, rfl⟩
    · obtain ⟨hempty, rfl⟩ := execRet_halted hexec hrun ht
      cases ht
      exact .inr (.inl ⟨rfl, hop, hempty, rfl⟩)
    · obtain ⟨more, hbuf, hans, rfl⟩ := execIn_halted hexec hrun ht
      cases ht
      exact .inr (.inr ⟨rfl, hop, hbuf, more, hans, rfl⟩)
  · obtain ⟨_, _, rfl⟩ := State.exists_takeFault_of_decodePhase_error hdec
    cases ht

end Sys2Proof.Machine

/-! ## The kinds of fault

Each check that an execution makes (`ExecFault`) raises one kind of fault, with the info that the law of the checked
operation gives (60_exceptions.md R151 to R158). -/

namespace Sys2Proof.Machine

/-- Settles O17: the record names the cause of the check that raised it, case by case. -/
theorem faultKindsRaisedByInstructions : Obligations.FaultKindsRaisedByInstructions := by
  refine ⟨fun i s t r hrun hexec hr => ?_, rfl, rfl, rfl, rfl, rfl, rfl, rfl⟩
  obtain ⟨hfault, hrecord⟩ := exec_faulted hexec hrun hr
  refine ⟨by rw [hrecord], ?_⟩
  obtain ⟨cause, _, _⟩ := r
  cases hfault with
  | dest ha h =>
    obtain ⟨hnone, rfl⟩ := (dst_eq_error_iff _ cause).1 h
    exact ⟨ha, hnone⟩
  | source hw h =>
    obtain ⟨hinvalid, rfl⟩ := (source_eq_error_iff s _ _ cause).1 h
    exact ⟨hw, hinvalid⟩
  | memRead hi hb h =>
    obtain ⟨hout, rfl⟩ := (State.memRead_eq_error_iff s _ _ cause).1 h
    exact ⟨hout, .inl ⟨_, _, hi, rfl, readsAs_of_source hb⟩⟩
  | memWrite hi ha h =>
    obtain ⟨hout, rfl⟩ := (State.memWrite_eq_error_iff _ _ _ cause).1 h
    exact ⟨hout, .inr ⟨_, _, hi, rfl, readsAs_of_source ha⟩⟩
  | divisionByZero hi hc h0 h =>
    cases h
    exact ⟨_, _, _, hi, (readsAs_iff_source s .c _ 0).2 ⟨_, hc, h0⟩⟩
  | stackUnderflow hi hs h =>
    cases h
    exact ⟨⟨_, hi⟩, hs⟩
  | push hi h =>
    obtain ⟨hfull, rfl⟩ := (State.push_eq_error_iff _ _ cause).1 h
    exact ⟨hi, hfull⟩

end Sys2Proof.Machine

/-! ## Image files, refused loads, and the host during a run

The words of an image file follow the file two bytes at a time (70_reset_and_hazards.md R183); a load that does not fit
is refused (R181, 00_scope.md R6), and so is every act of the host during a run but the answer to a waiting In (R185,
R186). -/

namespace Sys2Proof.Machine

/-! ### The words of an image file -/

/-- The word of a little-endian byte pair. -/
theorem toNat_ofNat_bytePair (lo hi : Byte) :
    (BitVec.ofNat 16 (lo.toNat + 256 * hi.toNat)).toNat = lo.toNat + 256 * hi.toNat := by
  have hlo := lo.isLt
  have hhi := hi.isLt
  rw [BitVec.toNat_ofNat]
  omega

theorem imageOfBytes_cons_cons_of_ok {lo hi : Byte} {rest : List Byte} {ws : List Word}
    (h : imageOfBytes rest = .ok ws) :
    imageOfBytes (lo :: hi :: rest) = .ok (BitVec.ofNat 16 (lo.toNat + 256 * hi.toNat) :: ws) := by
  rw [imageOfBytes, h]
  rfl

theorem imageOfBytes_of_odd (bytes : List Byte) (h : bytes.length % 2 = 1) :
    imageOfBytes bytes = .error .oddByteLength := by
  induction bytes using imageOfBytes.induct with
  | case1 => cases h
  | case2 => rfl
  | case3 lo hi rest ih =>
    have hrest : rest.length % 2 = 1 := by simpa [Nat.add_assoc] using h
    rw [imageOfBytes, ih hrest]
    rfl

theorem imageOfBytes_of_even (bytes : List Byte) (h : bytes.length % 2 = 0) :
    ∃ ws, imageOfBytes bytes = .ok ws ∧ 2 * ws.length = bytes.length ∧
      ∀ i, (ws[i]?).map BitVec.toNat =
        (bytes[2 * i]?).bind fun lo => (bytes[2 * i + 1]?).map fun hi => lo.toNat + 256 * hi.toNat := by
  induction bytes using imageOfBytes.induct with
  | case1 => exact ⟨[], rfl, rfl, fun i => by simp⟩
  | case2 => cases h
  | case3 lo hi rest ih =>
    have hrest : rest.length % 2 = 0 := by simpa [Nat.add_assoc] using h
    obtain ⟨ws, hws, hlen, hword⟩ := ih hrest
    refine ⟨_, imageOfBytes_cons_cons_of_ok hws, by simp only [List.length_cons]; omega, fun i => ?_⟩
    cases i with
    | zero => simpa using toNat_ofNat_bytePair lo hi
    | succ i => simpa [Nat.mul_succ] using hword i

/-- Settles O49: each pair of bytes is one word, and a byte left over at the end is refused. -/
theorem imageBytesAreLittleEndianPairs : Obligations.ImageBytesAreLittleEndianPairs :=
  fun bytes => ⟨imageOfBytes_of_odd bytes, imageOfBytes_of_even bytes⟩

/-! ### Refused loads -/

/-- Settles O48: the length is checked first, then the memory size. -/
theorem loadRefusesLongImageOrBadSize : Obligations.LoadRefusesLongImageOrBadSize := by
  refine fun image p answers => ⟨fun hlong => if_pos hlong, fun himage hsize => ?_⟩
  rw [boot, State.withImage, if_neg (not_lt.2 himage), if_pos hsize]

/-! ### The host during a run -/

theorem State.load_of_running {s : State} (h : s.status = .running) (image : List Word) (p : Config.Params) :
    s.load image p = .error .runInProgress := by
  rw [State.load, State.restart_of_running h, Option.getD_none]

theorem State.runResult_of_running {s : State} (h : s.status = .running) : s.runResult = none := by
  rw [State.runResult, h]

theorem State.finalState_of_running {s : State} (h : s.status = .running) : s.finalState = none :=
  if_pos (s.isRunning_iff.2 h)

theorem State.answerLine_of_not_waiting {s : State} (h : s.waitingForLine = false) (line : List Byte) :
    s.answerLine line = none :=
  if_neg (Bool.eq_false_iff.1 h)

/-- Settles O53: the status decides on each act but the answer, and the wait decides on that. -/
theorem runningMachineTakesOnlyLineAnswers : Obligations.RunningMachineTakesOnlyLineAnswers :=
  fun _ hrun =>
    ⟨fun image p => ⟨State.load_of_running hrun image p, State.restart_of_running hrun image p⟩,
      State.runResult_of_running hrun, State.finalState_of_running hrun,
      fun line => ⟨fun hidle => State.answerLine_of_not_waiting hidle line,
        fun hwait => State.answerLine_of_waiting hwait line⟩⟩

end Sys2Proof.Machine
